-- ==== Sys2Proof/Word.lean ====
section
/-! DEFINITION. The word types of the codec and their plainest arithmetic: the field of `W` bits
(30_encoding R84), its greatest value `M` (00_scope R5) and the width of the counter `dn`
(10_state R29). -/

namespace Sys2Proof

/-- A count field, and every register of the width of a field (R23, R28, R30, R84). -/
abbrev CountField (W : Nat) : Type := BitVec W

/-- `M = 2^W - 1`, the largest value a count field holds (R5). -/
def maxCount (W : Nat) : Nat := 2 ^ W - 1

/-- The width of `dn`: `max(1, ceil(log2 W))` bits (R29). The form used here computes on numerals;
`dnWidth_eq` in `Sys2Proof/Laws/Word.lean` shows that it is the spec's expression for every `W >= 1`. -/
def dnWidth (W : Nat) : Nat := Nat.log2 (W - 1) + 1

/-- The register `dn`. -/
abbrev BitCount (W : Nat) : Type := BitVec (dnWidth W)

/-- The 2-bit code of a token, `end` in bit 1 and `bit` in bit 0 (R80). -/
abbrev TokCode : Type := BitVec 2

end Sys2Proof
end

