-- ==== Sys2Proof/Config.lean ====
section
/-! DEFINITION. What an implementation fixes. The codec has one open parameter, the field width `W`
(00_scope R5, decision D1). It is carried by `State`, so that every statement holds for every width;
this file gives its default, its legal range and what is fixed from it (00_scope R6). The spec leaves no
result of an operation open, so there is no free value here. -/

namespace Sys2Proof.Config

/-- The default field width (R5: "a positive integer, `W >= 1`, default value 8"). -/
def defaultWidth : Nat := 8

/-- The legal widths: `W >= 1`; "`W = 0` is excluded" (R5). -/
abbrev WidthOk (W : Nat) : Prop := 1 ≤ W

/-- The capacity of the staging queue `eoq` in tokens (R6, R24). -/
def queueCapacity (W : Nat) : Nat := 2 * W

end Sys2Proof.Config
end

