-- ==== Sys2Proof/Syntax.lean ====
section
/-! DEFINITION. The tokens of the streams (20_memory R51) and the operations selected by an encoding:
one constructor of `Instr` for each row of spec/opcode_table.json (30_encoding R81, R82, R85, R92). -/

namespace Sys2Proof

/-- A token of an input stream, `BIT(b)` or `END` (R51). -/
inductive InTok where
  | bit (b : Bool)
  /-- `END`; the `bit` of its code is ignored (R80), so the token does not carry it. -/
  | fin
  deriving DecidableEq, Repr

/-- A token of an output stream, `BIT(b)` or `CLOSE(e)` (R51). -/
inductive OutTok where
  | bit (b : Bool)
  | close (e : Bool)
  deriving DecidableEq, Repr

/-- The two input streams (R50). -/
inductive InStream where
  | ei
  | di
  deriving DecidableEq, Repr

/-- Where the bits of an encoding are read: a token of format `TOK` on an input stream (R80), or `W` wire
bits of format `FLD` (R84). -/
inductive Source where
  | tok (stream : InStream)
  | fld
  deriving DecidableEq, Repr

/-- The operations selected by an encoding. -/
inductive Instr where
  /-- `EBIT 0`: the token `BIT(0)` on `EI` (R81). -/
  | ebit0
  /-- `EBIT 1`: the token `BIT(1)` on `EI` (R81). -/
  | ebit1
  /-- `EEND`: the token `END` on `EI` (R81). -/
  | eend
  /-- `DBIT 0`: the token `BIT(0)` on `DI` (R82). -/
  | dbit0
  /-- `DBIT 1`: the token `BIT(1)` on `DI` (R82). -/
  | dbit1
  /-- `DEND`: the token `END` on `DI` (R82). -/
  | dend
  /-- `RUN n`: a completed field of value `n`, `1 <= n <= M` (R85). -/
  | run (n : Nat)
  /-- `ESC`: a completed field of value 0 (R85). -/
  | esc
  deriving DecidableEq, Repr

end Sys2Proof
end

