-- ==== Sys2Proof/WellFormed.lean ====
section
/-! DEFINITION. Which operations exist at a given field width: the operand of `RUN` is a field value of at
least 1 (30_encoding R85), and the width itself is at least 1 (00_scope R5). -/

namespace Sys2Proof

/-- Is this an operation of a codec of field width `W`? -/
def Instr.wf (W : Nat) (i : Instr) : Bool :=
  decide (1 ≤ W) &&
  match i with
  | .ebit0 | .ebit1 | .eend | .dbit0 | .dbit1 | .dend | .esc => true
  | .run n => decide (1 ≤ n) && decide (n ≤ maxCount W)

end Sys2Proof
end

