-- ==== Sys2Proof/Decode.lean ====
section
/-! DEFINITION. The encodings: token codes (30_encoding R80), the selection of an operation by a token
(R81, R82) and by a completed field (R85), the decoder over a list of bits, total and rejecting by name,
and the encoder. Bits are listed as the table's `encoding` strings are, most significant first: `[end, bit]`
for a token, the `W` wire bits in their order of transfer for a field (20_memory R57). -/

namespace Sys2Proof

/-! ### Tokens -/

/-- The code `{end, bit}` of two pin values (R80). -/
def tokCode (endBit bit : Bool) : TokCode := BitVec.ofBool endBit ++ BitVec.ofBool bit

/-- The field `end` of a token code (R80). -/
def codeEnd (c : TokCode) : Bool := c.getLsbD 1

/-- The field `bit` of a token code (R80). -/
def codeBit (c : TokCode) : Bool := c.getLsbD 0

/-- The input token a code stands for; `0b11` is `END` like `0b10` (R80). -/
def inTokOfCode (c : TokCode) : InTok := if codeEnd c then .fin else .bit (codeBit c)

/-- The output token a code stands for (R80). -/
def outTokOfCode (c : TokCode) : OutTok := if codeEnd c then .close (codeBit c) else .bit (codeBit c)

/-- The code of an input token, `END` as `0b10` (R80). -/
def codeOfInTok : InTok → TokCode
  | .bit b => tokCode false b
  | .fin => tokCode true false

/-- The code of an output token (R80). -/
def codeOfOutTok : OutTok → TokCode
  | .bit b => tokCode false b
  | .close e => tokCode true e

/-- The operation a token selects on a stream (R81, R82). -/
def instrOfTok : InStream → InTok → Instr
  | .ei, .bit false => .ebit0
  | .ei, .bit true => .ebit1
  | .ei, .fin => .eend
  | .di, .bit false => .dbit0
  | .di, .bit true => .dbit1
  | .di, .fin => .dend

/-- The operation a token code selects on a stream. -/
def decodeToken (st : InStream) (c : TokCode) : Instr := instrOfTok st (inTokOfCode c)

/-! ### Fields -/

/-- The operation a completed field selects (R85). -/
def decodeField {W : Nat} (c : CountField W) : Instr := if c.toNat = 0 then .esc else .run c.toNat

/-- The unsigned value of wire bits, first bit most significant (R91). -/
def wireValue (bits : List Bool) : Nat := bits.foldl (fun acc b => 2 * acc + b.toNat) 0

/-- The low `n` bits of `v`, most significant first (R57). -/
def bitsOfNat (n v : Nat) : List Bool := (List.range n).map (fun j => v.testBit (n - 1 - j))

/-! ### The decoder and the encoder over lists of bits -/

/-- Why a list of bits is no encoding. -/
inductive DecodeError where
  /-- The width is 0 (R5 excludes it). -/
  | widthZero
  /-- A token has exactly two bits (R80). -/
  | tokenLength (n : Nat)
  /-- A field has exactly `W` bits (R84). -/
  | fieldLength (n : Nat)
  deriving DecidableEq, Repr

/-- The operation encoded by a list of bits read at `src`, for field width `W`. Every list of the right
length has a meaning: there are no reserved or illegal encodings (R88). -/
def decode (W : Nat) (src : Source) (bits : List Bool) : Except DecodeError Instr :=
  if W = 0 then .error .widthZero
  else match src with
    | .tok st =>
      if bits.length = 2 then .ok (decodeToken st (BitVec.ofNat 2 (wireValue bits)))
      else .error (.tokenLength bits.length)
    | .fld =>
      if bits.length = W then .ok (decodeField (BitVec.ofNat W (wireValue bits)))
      else .error (.fieldLength bits.length)

/-- Where an operation's encoding is read (the column `stream` of the opcode table). -/
def sourceOf : Instr → Source
  | .ebit0 | .ebit1 | .eend => .tok .ei
  | .dbit0 | .dbit1 | .dend => .tok .di
  | .run _ | .esc => .fld

/-- The bits of an operation, the ignored `bit` of an end token as 0 (R80, R84). -/
def encode (W : Nat) : Instr → List Bool
  | .ebit0 | .dbit0 => [false, false]
  | .ebit1 | .dbit1 => [false, true]
  | .eend | .dend => [true, false]
  | .run n => bitsOfNat W n
  | .esc => bitsOfNat W 0

/-! ### The host's numbering of the table's words -/

/-- Where a word of the opcode table is read. The table's words of format `TOK` and `FLD` overlap as numbers
and the host's call does not say the row's stream, so the model fixes one reading: a number below 4 is a
token code on `EI`, any other number is a field. DESIGN CHOICE (log 9), safe: no step of the machine and no
statement about one reads this. -/
def tableSource (w : Nat) : Source := if w < 4 then .tok .ei else .fld

/-- The operation the decoder reads from a word of the opcode table, its bit 0 the least significant bit;
`nbits` is the number of bits the table gives the row, and a field is read at the width `nbits`. -/
def decodeTableWord (nbits w : Nat) : Option Instr :=
  let bits := match tableSource w with
    | .tok _ => bitsOfNat 2 w
    | .fld => bitsOfNat nbits w
  match decode nbits (tableSource w) bits with
  | .ok i => some i
  | .error _ => none

end Sys2Proof
end

