-- ==== Sys2Proof/Machine/State.lean ====
section
/-! DEFINITION. The state of the machine: the registers of the two units (10_state R20, R25), the traces a
model keeps (R41), the field width (00_scope R5) and what the environment drives on the input pins at the
coming clock edges (20_memory R52). Also the reasons a step can stop, and the state after reset (R36). -/

namespace Sys2Proof.Machine

/-- The three states of each unit's state machine (R21, R26). The code `0b11` of R87 is no state. -/
inductive Phase where
  | atRunStart
  | inRun
  | done
  deriving DecidableEq, Repr

/-- The complete state of `ENC` (R20). -/
structure Enc (W : Nat) where
  /-- The state of the state machine (R21). -/
  est : Phase
  /-- The bit value of the run in progress (R22). -/
  ebit : Bool
  /-- The length of the run in progress so far (R23). -/
  ecnt : CountField W
  /-- Tokens produced and not yet taken by the sink of `EO`, head first (R24). -/
  eoq : List OutTok
  deriving DecidableEq, Repr

/-- The complete state of `DEC` (R25). -/
structure Dec (W : Nat) where
  /-- The state of the state machine (R26). -/
  dst : Phase
  /-- The bit value the next run will have (R27). -/
  dpol : Bool
  /-- The bits of the field being assembled (R28). -/
  dsh : CountField W
  /-- How many bits of the field being assembled have arrived (R29). -/
  dn : BitCount W
  /-- Copies of `dpol` still to put out for the current field (R30). -/
  drem : CountField W
  /-- TruncatedInput has happened (R31). -/
  derr : Bool
  /-- A `CLOSE` token waits for the sink of `DO` (R32). -/
  dcl : Bool
  deriving DecidableEq, Repr

/-- The input pins at one rising edge of `clk` (R52). -/
structure PortIn where
  encRst : Bool
  decRst : Bool
  eiValid : Bool
  eiEnd : Bool
  eiBit : Bool
  eoReady : Bool
  diValid : Bool
  diEnd : Bool
  diBit : Bool
  doReady : Bool
  deriving DecidableEq, Repr

/-- An edge at which the environment offers nothing, takes nothing and resets nothing. -/
def PortIn.idle : PortIn :=
  { encRst := false, decRst := false, eiValid := false, eiEnd := false, eiBit := false, eoReady := false,
    diValid := false, diEnd := false, diBit := false, doReady := false }

/-- The whole machine. -/
structure State where
  /-- The field width of this codec, fixed for its life (R5); both units use it. -/
  W : Nat
  /-- The encoder unit. -/
  enc : Enc W
  /-- The decoder unit. -/
  dec : Dec W
  /-- `trace(EI)`, earliest token first (R41); like the other traces it is not hardware state (R40). -/
  trEI : List InTok
  /-- `trace(EO)` (R41). -/
  trEO : List OutTok
  /-- `trace(DI)` (R41). -/
  trDI : List InTok
  /-- `trace(DO)` (R41). -/
  trDO : List OutTok
  /-- The input pins at the coming clock edges, the next one first; after the last of them every edge is idle.
  The model's own field (log 2): the environment's future, not the hardware's state. -/
  edges : List PortIn
  deriving DecidableEq, Repr

/-- Why a step stops with a fault. Both faults stand for register contents that no rule of the spec covers;
no run from reset reaches them (obligation `EveryStepSucceedsUnderTheInvariant`). TruncatedInput is not here:
the spec gives it an effect, so it is a next state (R166). -/
inductive Fault where
  /-- Raised by `DBIT0` and `DBIT1` when `dn > W - 1`, which R131 and R132 both leave out. Safe: the model stops. -/
  | bitCountPastField
  /-- Raised by the output step `DOBIT` when `dst == IN_RUN` and `drem == 0`, outside the condition of R135.
  Safe: the model stops. -/
  | runWithNoCopies
  deriving DecidableEq, Repr

/-- Why an instruction is refused. -/
inductive Refusal where
  /-- Raised by an arm of `exec` for an instruction that has no meaning yet. Safe: the model stops. -/
  | notModelled (mnemonic : String)
  /-- Raised by `RUN n` when `n` is no operand of `RUN` at this width, `n = 0` or `n > M` (R85): the decoder never
  gives such an instruction. Safe: the model stops. -/
  | fieldOutOfRange (n : Nat)
  deriving DecidableEq, Repr

/-- What a step answers. -/
abbrev Result : Type := Host.Outcome State Fault Refusal

/-- `ENC` after a reset step (R36). -/
def Enc.reset (W : Nat) : Enc W := { est := .atRunStart, ebit := false, ecnt := 0, eoq := [] }

/-- `DEC` after a reset step (R36). -/
def Dec.reset (W : Nat) : Dec W :=
  { dst := .atRunStart, dpol := false, dsh := 0, dn := 0, drem := 0, derr := false, dcl := false }

/-- A codec of width `W` with both units just reset, the traces empty (R36, R41), and nothing offered by the
environment. -/
def State.resetAt (W : Nat) : State :=
  { W := W, enc := Enc.reset W, dec := Dec.reset W, trEI := [], trEO := [], trDI := [], trDO := [], edges := [] }

/-- The machine right after reset, at the default width (R36, R5). -/
def State.reset : State := State.resetAt Config.defaultWidth

end Sys2Proof.Machine
end

