-- ==== Sys2Proof/Machine/Operands.lean ====
section
/-! DEFINITION. Operand forms: the wire bits of a field (20_memory R57), the one-place shift that takes a wire
bit into `dsh` (41_decoder R131, R132), and the pins read as a token (20_memory R53). -/

namespace Sys2Proof.Machine

/-- The wire bits of a field, in their order of transfer: bit `j` is `v[W-1-j]` (R57). -/
def fieldBits {W : Nat} (v : CountField W) : List Bool :=
  (List.range W).map (fun j => v.getLsbD (W - 1 - j))

/-- The tokens `emit_field` appends for a field (R101). -/
def fieldToks {W : Nat} (v : CountField W) : List OutTok := (fieldBits v).map OutTok.bit

/-- The field of value `M`, all ones (R5). -/
def fieldMax (W : Nat) : CountField W := BitVec.ofNat W (maxCount W)

/-- `{dsh[W-2:0], b}`: the earlier bits move up and `b` enters at bit 0; at `W = 1` it is `b` (R131, R132). -/
def shiftIn {W : Nat} (v : CountField W) (b : Bool) : CountField W := BitVec.ofNat W (2 * v.toNat + b.toNat)

/-- The register `dn` holding the value `n`. -/
def bitCount (W n : Nat) : BitCount W := BitVec.ofNat (dnWidth W) n

/-- The code on the pins of `EI` (R53). -/
def eiCode (p : PortIn) : TokCode := tokCode p.eiEnd p.eiBit

/-- The code on the pins of `DI` (R53). -/
def diCode (p : PortIn) : TokCode := tokCode p.diEnd p.diBit

end Sys2Proof.Machine
end

