-- ==== Sys2Proof/Machine/Flags.lean ====
section
/-! DEFINITION. The one flag `derr` (10_state R31), the state codes (30_encoding R87) and the three status
outputs (10_state R35). -/

namespace Sys2Proof.Machine

/-- The 2-bit code of a unit's state (R87). -/
def phaseCode : Phase → BitVec 2
  | .atRunStart => 0b00#2
  | .inRun => 0b01#2
  | .done => 0b10#2

/-- The status output `enc_state` (R35). -/
def encState {W : Nat} (e : Enc W) : BitVec 2 := phaseCode e.est

/-- The status output `dec_state` (R35). -/
def decState {W : Nat} (d : Dec W) : BitVec 2 := phaseCode d.dst

/-- The status output `dec_err` (R35). -/
def decErr {W : Nat} (d : Dec W) : Bool := d.derr

/-- The flag `derr` set, as TruncatedInput alone does (R31, R137). -/
def setErr {W : Nat} (d : Dec W) : Dec W := { d with derr := true }

end Sys2Proof.Machine
end

