-- ==== Sys2Proof/Machine/Ops.lean ====
section
/-! DEFINITION. The shared operations over the two units: when a unit takes a token (40_encoder R100,
41_decoder R130), the count packer and the close marker (R101, R102), the count unpacker (R131, R132), the
field operations (R133, R134), taking TruncatedInput (60_exceptions R166) and the reset of a unit
(70_reset_and_hazards R180). There is no return from an exception but the reset (R168). -/

namespace Sys2Proof.Machine

/-! ### Acceptance -/

/-- The encoder takes a token: not in `DONE`, and nothing left to put out (R100, less the reset pin). -/
def encAccepts {W : Nat} (e : Enc W) : Bool := decide (e.est ≠ .done) && e.eoq.isEmpty

/-- The decoder takes a token: it waits for a field (R130, less the reset pin). -/
def decAccepts {W : Nat} (d : Dec W) : Bool := decide (d.dst = .atRunStart)

/-! ### The encoder's output primitives -/

/-- `emit_field(v)`, the count packer (R101). -/
def emitField {W : Nat} (v : CountField W) (e : Enc W) : Enc W := { e with eoq := e.eoq ++ fieldToks v }

/-- `emit_close()` (R102). -/
def emitClose {W : Nat} (e : Enc W) : Enc W := { e with eoq := e.eoq ++ [OutTok.close false] }

/-! ### The decoder's field operations -/

/-- `RUN n` on the registers (R133). -/
def runField {W : Nat} (n : CountField W) (d : Dec W) : Dec W := { d with drem := n, dst := .inRun }

/-- `ESC` on the registers (R134). -/
def escField {W : Nat} (d : Dec W) : Dec W := { d with dpol := !d.dpol }

/-- The field operation a completed field selects, executed inside R132. -/
def fieldOp {W : Nat} (c : CountField W) (d : Dec W) : Dec W :=
  if c.toNat = 0 then escField d else runField c d

/-- The unpacker's registers after the last bit of a field has been taken (the writes of R132 before the field
operation): `dsh <- c`, `dn <- 0`. -/
def unpacked {W : Nat} (b : Bool) (d : Dec W) : Dec W :=
  { d with dsh := shiftIn d.dsh b, dn := bitCount W 0 }

/-- A wire bit of a field that is not yet complete (R131). -/
def shiftBit {W : Nat} (b : Bool) (d : Dec W) : Dec W :=
  { d with dsh := shiftIn d.dsh b, dn := bitCount W (d.dn.toNat + 1) }

/-- A wire bit that completes a field (R132). -/
def completeField {W : Nat} (b : Bool) (d : Dec W) : Dec W :=
  fieldOp (shiftIn d.dsh b) (unpacked b d)

/-! ### Taking the exception -/

/-- `raise TruncatedInput`, in full (R166): `derr <- 1`, `dcl <- 1`, `dst <- DONE`, nothing else. -/
def raiseTruncatedInput {W : Nat} (d : Dec W) : Dec W := { setErr d with dcl := true, dst := .done }

/-- The clean end of the decoder's input (R136). -/
def cleanEnd {W : Nat} (d : Dec W) : Dec W := { d with dcl := true, dst := .done }

/-! ### Transfers and reset, on the whole machine -/

/-- A token `t` offered on `EI`, which would leave the unit at `e'`: taken and recorded in the trace if the encoder
accepts (R100); otherwise nothing happens and the token stays on offer (R109). -/
def offerEnc (t : InTok) (s : State) (e' : Enc s.W) : State :=
  if encAccepts s.enc then { s with enc := e', trEI := s.trEI ++ [t] } else s

/-- A token `t` taken from `DI` with the unit left at `d'`, recorded in the trace. -/
def tookDI (t : InTok) (s : State) (d' : Dec s.W) : State :=
  { s with dec := d', trDI := s.trDI ++ [t] }

/-- The reset step of `ENC`: its registers at the values of R36 and its traces empty (R180, R41). -/
def resetEnc (s : State) : State := { s with enc := Enc.reset s.W, trEI := [], trEO := [] }

/-- The reset step of `DEC` (R180, R41). -/
def resetDec (s : State) : State := { s with dec := Dec.reset s.W, trDI := [], trDO := [] }

end Sys2Proof.Machine
end

