-- ==== Sys2Proof/Machine/Decoder.lean ====
section
/-! DEFINITION. The decoder's input operations (41_decoder R130 to R132, R136, R137, R139): `DBIT0`, `DBIT1`,
`DEND`; and its field operations standing alone (R133, R134): `RUN`, `ESC`. -/

namespace Sys2Proof.Machine

/-- `DBIT b`: not yet complete (R131), completing a field (R132), or not taken (R139). `dn > W - 1` is outside
both rules and outside every run (10_state R39): a named fault. -/
def decBit (b : Bool) (s : State) : Result :=
  if decAccepts s.dec then
    if s.dec.dn.toNat < s.W - 1 then .next (tookDI (.bit b) s (shiftBit b s.dec))
    else if s.dec.dn.toNat = s.W - 1 then .next (tookDI (.bit b) s (completeField b s.dec))
    else .fault .bitCountPastField
  else .next s

/-- `DBIT0` (R131, R132, R139). -/
def execDbit0 (s : State) : Result := decBit false s

/-- `DBIT1` (R131, R132, R139). -/
def execDbit1 (s : State) : Result := decBit true s

/-- `DEND`: the clean end (R136), TruncatedInput (R137), or not taken (R139). -/
def execDend (s : State) : Result :=
  if decAccepts s.dec then
    if s.dec.dn.toNat = 0 then .next (tookDI .fin s (cleanEnd s.dec))
    else .next (tookDI .fin s (raiseTruncatedInput s.dec))
  else .next s

/-- A field operation is executed when a field has just been completed: the decoder waits for a field and no bit
of a next one has arrived (R132 writes `dn <- 0` first). DEDUCED (log 7). -/
def fieldReady {W : Nat} (d : Dec W) : Bool := decAccepts d && decide (d.dn.toNat = 0)

/-- `RUN n` (R133). An `n` that is no operand of `RUN` at this width (R85) is refused by name. -/
def execRun (n : Nat) (s : State) : Result :=
  if 1 ≤ n ∧ n ≤ maxCount s.W then
    if fieldReady s.dec then .next { s with dec := runField (BitVec.ofNat s.W n) s.dec } else .next s
  else .refused (.fieldOutOfRange n)

/-- `ESC` (R134). -/
def execEsc (s : State) : Result :=
  if fieldReady s.dec then .next { s with dec := escField s.dec } else .next s

end Sys2Proof.Machine
end

