-- ==== Sys2Proof/Machine/Encoder.lean ====
section
/-! DEFINITION. The encoder's input operations (40_encoder R103 to R109): `EBIT0`, `EBIT1`, `EEND`. -/

namespace Sys2Proof.Machine

/-- The first bit (R103): a leading field 0 when it is 1. -/
def encFirst {W : Nat} (b : Bool) (e : Enc W) : Enc W :=
  { (if b then emitField 0 e else e) with ebit := b, ecnt := BitVec.ofNat W 1, est := .inRun }

/-- A bit continuing the run (R104). -/
def encContinue {W : Nat} (e : Enc W) : Enc W := { e with ecnt := BitVec.ofNat W (e.ecnt.toNat + 1) }

/-- A bit overflowing the field: the overflow splitter (R105). -/
def encOverflow {W : Nat} (e : Enc W) : Enc W :=
  { emitField 0 (emitField (fieldMax W) e) with ecnt := BitVec.ofNat W 1 }

/-- A bit changing the run (R106). -/
def encChange {W : Nat} (b : Bool) (e : Enc W) : Enc W :=
  { emitField e.ecnt e with ebit := b, ecnt := BitVec.ofNat W 1 }

/-- `EBIT b`: the case is chosen by `est`, `ebit` and `ecnt` (R100, R81). In `DONE` no token is transferred
(R109), so that case is never reached through `offerEnc`. -/
def encBit {W : Nat} (b : Bool) (e : Enc W) : Enc W :=
  match e.est with
  | .atRunStart => encFirst b e
  | .inRun =>
    if b = e.ebit then
      if e.ecnt.toNat < maxCount W then encContinue e else encOverflow e
    else encChange b e
  | .done => e

/-- `EEND`: an empty input (R107), or a run in progress whose field is emitted (R108). -/
def encEnd {W : Nat} (e : Enc W) : Enc W :=
  match e.est with
  | .atRunStart => { emitClose e with est := .done }
  | .inRun => { emitClose (emitField e.ecnt e) with est := .done }
  | .done => e

/-- `EBIT0` (R103 to R106, R109). -/
def execEbit0 (s : State) : Result := .next (offerEnc (.bit false) s (encBit false s.enc))

/-- `EBIT1` (R103 to R106, R109). -/
def execEbit1 (s : State) : Result := .next (offerEnc (.bit true) s (encBit true s.enc))

/-- `EEND` (R107, R108, R109). -/
def execEend (s : State) : Result := .next (offerEnc .fin s (encEnd s.enc))

end Sys2Proof.Machine
end

