-- ==== Sys2Proof/Machine/Dispatch.lean ====
section
/-! DEFINITION. The meaning of each instruction: one arm per row of the opcode table. -/

namespace Sys2Proof.Machine

def exec (i : Instr) (s : State) : Host.Outcome State Fault Refusal :=
  match i with
  | .ebit0 => Sys2Proof.Machine.execEbit0 s
  | .ebit1 => Sys2Proof.Machine.execEbit1 s
  | .eend => Sys2Proof.Machine.execEend s
  | .dbit0 => Sys2Proof.Machine.execDbit0 s
  | .dbit1 => Sys2Proof.Machine.execDbit1 s
  | .dend => Sys2Proof.Machine.execDend s
  | .run n => Sys2Proof.Machine.execRun n s
  | .esc => Sys2Proof.Machine.execEsc s

end Sys2Proof.Machine
end

