-- ==== Sys2Proof/Machine/Ports.lean ====
section
/-! DEFINITION. The output pins as functions of the state and of the unit's reset pin (20_memory R52, R54;
40_encoder R100, R110; 41_decoder R130, R135, R138; 10_state R35). -/

namespace Sys2Proof.Machine

/-- The output pins of the block (R52). -/
structure PortOut where
  eiReady : Bool
  eoValid : Bool
  eoEnd : Bool
  eoBit : Bool
  diReady : Bool
  doValid : Bool
  doEnd : Bool
  doBit : Bool
  encState : BitVec 2
  decState : BitVec 2
  decErr : Bool
  deriving DecidableEq, Repr

/-- `ei_ready` (R100). -/
def eiReady {W : Nat} (rst : Bool) (e : Enc W) : Bool := encAccepts e && !rst

/-- `eo_valid` (R110). -/
def eoValid {W : Nat} (rst : Bool) (e : Enc W) : Bool := !e.eoq.isEmpty && !rst

/-- `{eo_end, eo_bit}`: the code of the head of `eoq`, `0b00` while nothing is offered (R110). -/
def eoCode {W : Nat} (rst : Bool) (e : Enc W) : TokCode :=
  if eoValid rst e then
    match e.eoq with
    | t :: _ => codeOfOutTok t
    | [] => 0
  else 0

/-- `di_ready` (R130). -/
def diReady {W : Nat} (rst : Bool) (d : Dec W) : Bool := decAccepts d && !rst

/-- `do_valid` (R135). -/
def doValid {W : Nat} (rst : Bool) (d : Dec W) : Bool := (decide (d.dst = .inRun) || d.dcl) && !rst

/-- The token on offer on `DO` while `do_valid` is 1: `BIT(dpol)` in `IN_RUN` (R135), else `CLOSE(derr)` (R138).
The two conditions exclude each other in every state a run reaches (10_state R39); where both hold, `BIT(dpol)` is a
DESIGN CHOICE, unsafe for a claim about such a state (log 10). -/
def doTok {W : Nat} (d : Dec W) : OutTok := if d.dst = .inRun then .bit d.dpol else .close d.derr

/-- `{do_end, do_bit}` (R135, R138), `0b00` while nothing is offered. -/
def doCode {W : Nat} (rst : Bool) (d : Dec W) : TokCode :=
  if doValid rst d then codeOfOutTok (doTok d) else 0

/-- All output pins (R52). -/
def portsOut (p : PortIn) (s : State) : PortOut :=
  { eiReady := eiReady p.encRst s.enc
    eoValid := eoValid p.encRst s.enc
    eoEnd := codeEnd (eoCode p.encRst s.enc)
    eoBit := codeBit (eoCode p.encRst s.enc)
    diReady := diReady p.decRst s.dec
    doValid := doValid p.decRst s.dec
    doEnd := codeEnd (doCode p.decRst s.dec)
    doBit := codeBit (doCode p.decRst s.dec)
    encState := encState s.enc
    decState := decState s.dec
    decErr := decErr s.dec }

end Sys2Proof.Machine
end

