-- ==== Sys2Proof/Machine/Output.lean ====
section
/-! DEFINITION. The output steps, caused by a sink and selected by no encoding: `EOPOP` (40_encoder R110),
`DOBIT` (41_decoder R135) and `DOCLOSE` (R138). -/

namespace Sys2Proof.Machine

/-- `EOPOP`: the head of `eoq` is transferred on `EO` (R110). -/
def eoPop (s : State) : State :=
  match s.enc.eoq with
  | [] => s
  | t :: q => { s with enc := { s.enc with eoq := q }, trEO := s.trEO ++ [t] }

/-- The decoder's registers after one copy of a run has been transferred (R135). -/
def tookCopy {W : Nat} (d : Dec W) : Dec W :=
  if d.drem.toNat = 1 then { d with drem := 0, dpol := !d.dpol, dst := .atRunStart }
  else { d with drem := BitVec.ofNat W (d.drem.toNat - 1) }

/-- `DOBIT` (R135), for `dst == IN_RUN`. With `drem == 0` the rule's condition fails: a named fault, in no run. -/
def doBit (s : State) : Result :=
  if s.dec.drem.toNat = 0 then .fault .runWithNoCopies
  else .next { s with dec := tookCopy s.dec, trDO := s.trDO ++ [OutTok.bit s.dec.dpol] }

/-- `DOCLOSE` (R138), for `dcl == 1`. -/
def doClose (s : State) : State :=
  { s with dec := { s.dec with dcl := false }, trDO := s.trDO ++ [OutTok.close s.dec.derr] }

/-- The transfer on `DO` of the token on offer (`doTok`, with the choice of log 10 for `IN_RUN` with `dcl == 1`). -/
def doPop (s : State) : Result :=
  match s.dec.dst with
  | .inRun => doBit s
  | .atRunStart | .done => .next (doClose s)

end Sys2Proof.Machine
end

