-- ==== Sys2Proof/Machine/Edge.lean ====
section
/-! DEFINITION. What one rising edge of `clk` does (20_memory R53, 60_exceptions R167, 70_reset_and_hazards
R180): in each unit its reset, or the operation of the token transferred on its input stream, or the transfer
on its output stream, or nothing. Also the placing of a word of the opcode table where the next step takes it. -/

namespace Sys2Proof.Machine

/-- Sequencing of two parts of a step: the first stop ends the step. -/
def andThen (r : Result) (f : State → Result) : Result :=
  match r with
  | .next s => f s
  | .fault x => .fault x
  | .refused x => .refused x

/-- `ENC` at one edge: reset wins (R167); a token is transferred on `EI` when `ei_valid` and `ei_ready` (R53), and
selects its operation (R81); else a token is transferred on `EO` when `eo_valid` and `eo_ready` (R110). -/
def encEdge (p : PortIn) (s : State) : Result :=
  if p.encRst then .next (resetEnc s)
  else if p.eiValid && eiReady p.encRst s.enc then exec (decodeToken .ei (eiCode p)) s
  else if p.eoReady && eoValid p.encRst s.enc then .next (eoPop s)
  else .next s

/-- `DEC` at one edge, in the same way (R167, R82, R135, R138). In `AT_RUN_START` with `dcl == 1`, which no run reaches
(10_state R39 (c)), both `DI` and `DO` can be valid and ready: R53 would transfer on both, R167 (b) allows one and names
neither. DESIGN CHOICE, unsafe for a claim about such a state: the token of `DI` is taken and `CLOSE` stays on offer
(log 17). -/
def decEdge (p : PortIn) (s : State) : Result :=
  if p.decRst then .next (resetDec s)
  else if p.diValid && diReady p.decRst s.dec then exec (decodeToken .di (diCode p)) s
  else if p.doReady && doValid p.decRst s.dec then doPop s
  else .next s

/-- One rising edge with the input pins `p`. The units do not interact (R8, R167d), so the order in which the model
takes them cannot be seen (log 3). -/
def clockEdge (p : PortIn) (s : State) : Result := andThen (encEdge p s) (decEdge p)

/-- The next edge of the environment's list, an idle edge when the list is spent (log 2). -/
def nextPins (s : State) : PortIn := s.edges.headD PortIn.idle

/-- One step of the machine: the next edge. -/
def stepEdge (s : State) : Result := clockEdge (nextPins s) { s with edges := s.edges.tail }

/-! ### Placing a word -/

/-- An edge at which only the source of `EI` acts, offering the code `c`. -/
def edgeEI (c : TokCode) : PortIn :=
  { PortIn.idle with eiValid := true, eiEnd := codeEnd c, eiBit := codeBit c }

/-- An edge at which only the source of `DI` acts, offering the code `c`. -/
def edgeDI (c : TokCode) : PortIn :=
  { PortIn.idle with diValid := true, diEnd := codeEnd c, diBit := codeBit c }

/-- `s` with the token code `c` offered on `EI` at the next edge. -/
def placeEI (c : TokCode) (s : State) : State := { s with edges := edgeEI c :: s.edges }

/-- `s` with the field `w` all but taken: its first `W - 1` wire bits are in the unpacker and in the trace, and its
last bit is offered on `DI` at the next edge. -/
def placeField (w : Nat) (s : State) : State :=
  { s with
    dec := { s.dec with dsh := BitVec.ofNat s.W (w / 2), dn := bitCount s.W (s.W - 1) }
    trDI := s.trDI ++ (bitsOfNat (s.W - 1) (w / 2)).map InTok.bit
    edges := edgeDI (tokCode false (w.testBit 0)) :: s.edges }

/-- `s` with the table's word `w` placed where the next step takes it (log 9). -/
def placeWord (w : Nat) (s : State) : State :=
  match tableSource w with
  | .tok _ => placeEI (BitVec.ofNat 2 w) s
  | .fld => placeField w s

end Sys2Proof.Machine
end

