-- ==== Sys2Proof/Machine/Step.lean ====
section
/-! DEFINITION. One step of the machine, and the host's placing of a word. -/

namespace Sys2Proof.Machine

/-- One step: one rising edge of `clk`. -/
def step (s : State) : Host.Outcome State Fault Refusal := stepEdge s

/-- `s` with the opcode table's word `w` stored where `step` takes its next operation. A field is placed at the
width of the machine, whatever `nbits` says; at the default width the two are the same. -/
def State.withFetchWord (s : State) (_nbits w : Nat) : State := placeWord w s

end Sys2Proof.Machine
end

