-- ==== Sys2Proof/Machine/Environment.lean ====
section
/-! DEFINITION. Environments that look at the output pins, as the list `edges` of State cannot: the loop-back wiring
of `EO` to `DI` (20_memory R68), and a source that offers the next token until it is taken beside a sink that
takes every token offered (70_reset_and_hazards R183, R197). -/

namespace Sys2Proof.Machine

/-! ### Loop-back -/

/-- The pins of an edge with `EO` wired straight to `DI`: `di_valid = eo_valid`, `eo_ready = di_ready`,
`di_end = eo_end`, `di_bit = eo_bit` (R68). The other pins are as given. -/
def loopPins (p : PortIn) (s : State) : PortIn :=
  { p with
    eoReady := diReady p.decRst s.dec
    diValid := eoValid p.encRst s.enc
    diEnd := codeEnd (eoCode p.encRst s.enc)
    diBit := codeBit (eoCode p.encRst s.enc) }

/-- One edge of the looped-back system. -/
def loopEdge (p : PortIn) (s : State) : Result := clockEdge (loopPins p s) s

/-- The edges `ps` of the looped-back system, one after the other. -/
def loopRun : List PortIn → State → Result
  | [], s => .next s
  | p :: ps, s => andThen (loopEdge p s) (loopRun ps)

/-! ### A willing source and a willing sink -/

/-- The pins of an edge at which the source of `EI` offers the head of `src`, if there is one, and the sink of `EO`
takes what is offered. -/
def encDrivePins (src : List InTok) : PortIn :=
  match src with
  | [] => { PortIn.idle with eoReady := true }
  | t :: _ =>
    { PortIn.idle with
      eoReady := true, eiValid := true, eiEnd := codeEnd (codeOfInTok t), eiBit := codeBit (codeOfInTok t) }

/-- What the source of `EI` still has after an edge: it holds a token until the edge at which it is taken (R54). -/
def encSourceAfter (src : List InTok) (s : State) : List InTok :=
  if eiReady false s.enc then src.tail else src

/-- `k` edges of the encoder between a willing source holding `src` and a willing sink. -/
def encDrive : Nat → List InTok → State → Result
  | 0, _, s => .next s
  | k + 1, src, s => andThen (clockEdge (encDrivePins src) s) (encDrive k (encSourceAfter src s))

/-- The pins of an edge at which the source of `DI` offers the head of `src`, if there is one, and the sink of `DO`
takes what is offered. -/
def decDrivePins (src : List InTok) : PortIn :=
  match src with
  | [] => { PortIn.idle with doReady := true }
  | t :: _ =>
    { PortIn.idle with
      doReady := true, diValid := true, diEnd := codeEnd (codeOfInTok t), diBit := codeBit (codeOfInTok t) }

/-- What the source of `DI` still has after an edge (R54). -/
def decSourceAfter (src : List InTok) (s : State) : List InTok :=
  if diReady false s.dec then src.tail else src

/-- `k` edges of the decoder between a willing source holding `src` and a willing sink. -/
def decDrive : Nat → List InTok → State → Result
  | 0, _, s => .next s
  | k + 1, src, s => andThen (clockEdge (decDrivePins src) s) (decDrive k (decSourceAfter src s))

end Sys2Proof.Machine
end

