-- ==== Sys2Proof/Machine/Sequences.lean ====
section
/-! DEFINITION. The spec's functions on finite sequences, in which the whole-invocation rules are stated: `Pack`
and `Unpack` (20_memory R67), the runs of a bit sequence, `split` and `lead` (40_encoder R112, 30_encoding R86),
`Encode` (R114) and `Decode` (41_decoder R140). No operation of the machine uses them. -/

namespace Sys2Proof.Machine

/-- `Pack(F)`: bit `j` of field `v` is `v[W-1-j]` (R67). -/
def pack (W : Nat) (F : List Nat) : List Bool := F.flatMap (bitsOfNat W)

/-- The number of whole fields in a sequence of wire bits (R67). -/
def fieldCount (W : Nat) (X : List Bool) : Nat := X.length / W

/-- The field sequence of `Unpack(X)`: field `i` is made of the bits from `i*W` to `i*W + W - 1` (R67, R58). -/
def unpackFields (W : Nat) (X : List Bool) : List Nat :=
  (List.range (fieldCount W X)).map (fun i => wireValue ((X.drop (i * W)).take W))

/-- The number of tail bits of `Unpack(X)` (R67). -/
def tailCount (W : Nat) (X : List Bool) : Nat := X.length % W

/-- The tail bits themselves, those after the last whole field. -/
def tailBits (W : Nat) (X : List Bool) : List Bool := X.drop (fieldCount W X * W)

/-- The lengths of the runs of `xs`, given that `n` bits of value `b` come before it in the same run. -/
def runLengthsFrom (b : Bool) (n : Nat) : List Bool → List Nat
  | [] => [n]
  | x :: xs => if x = b then runLengthsFrom b (n + 1) xs else n :: runLengthsFrom x 1 xs

/-- The lengths of the maximal runs of a bit sequence, in order (R14, R114). -/
def runLengths : List Bool → List Nat
  | [] => []
  | x :: xs => runLengthsFrom x 1 xs

/-- `split(L) = [M, 0]^q ++ [s]` with `q = (L - 1) div M` and `s = L - q*M` (R112). -/
def split (W L : Nat) : List Nat :=
  let q := (L - 1) / maxCount W
  (List.replicate q [maxCount W, 0]).flatten ++ [L - q * maxCount W]

/-- `lead(b)`: one field 0 before a first run of ones (R86, R103). -/
def lead : List Bool → List Nat
  | true :: _ => [0]
  | _ => []

/-- `Encode(B)` (R114). -/
def encodeFields (W : Nat) (B : List Bool) : List Nat := lead B ++ (runLengths B).flatMap (split W)

/-- The bits of a field sequence whose first field has polarity `p`. -/
def decodeFrom (p : Bool) : List Nat → List Bool
  | [] => []
  | c :: F => List.replicate c p ++ decodeFrom (!p) F

/-- `Decode(F)`: the first field counts zeros and each next field the other value (R140). -/
def decodeFields (F : List Nat) : List Bool := decodeFrom false F

/-- The polarity after `n` fields: `n` modulo 2 (R27). -/
def parity (n : Nat) : Bool := n % 2 == 1

/-- The bits of a sequence of input tokens. -/
def inBits (tr : List InTok) : List Bool :=
  tr.filterMap (fun t => match t with
    | .bit b => some b
    | .fin => none)

end Sys2Proof.Machine
end

