-- ==== Sys2Proof/Safety.lean ====
section
/-! DEFINITION. What counts as a good state: the register invariants of the spec (10_state R38, R39), the relation
between the registers and the traces of an invocation (R41, R114, R143), and when an invocation is over
(70_reset_and_hazards R184). Claims are stated in these terms. -/

namespace Sys2Proof.Machine

/-! ### Ends of an invocation -/

/-- The encoder's invocation is over: `est == DONE` and `eoq` empty (R184). -/
def EncOver (s : State) : Prop := s.enc.est = .done ∧ s.enc.eoq = []

/-- The decoder's invocation is over: `dst == DONE` and `dcl == 0` (R184). -/
def DecOver (s : State) : Prop := s.dec.dst = .done ∧ s.dec.dcl = false

/-! ### Register invariants -/

/-- R38 (a) and (b): the run in progress has a length in `[1, M]`, and the queue keeps its capacity. -/
def EncRegs (s : State) : Prop :=
  (s.enc.est = .inRun → 1 ≤ s.enc.ecnt.toNat ∧ s.enc.ecnt.toNat ≤ maxCount s.W) ∧
  s.enc.eoq.length ≤ Config.queueCapacity s.W

/-- R39 (a), (b), (c) and (e). -/
def DecRegs (s : State) : Prop :=
  (s.dec.dst = .inRun ↔ 1 ≤ s.dec.drem.toNat) ∧
  s.dec.dn.toNat ≤ s.W - 1 ∧
  (s.dec.dst = .inRun → s.dec.dn.toNat = 0) ∧
  (s.dec.dcl = true → s.dec.dst = .done) ∧
  (s.dec.derr = true → s.dec.dst = .done) ∧
  s.dec.drem.toNat ≤ maxCount s.W

/-- The register invariants of both units, at a legal width (R5, R38, R39). -/
def RegsOk (s : State) : Prop := Config.WidthOk s.W ∧ EncRegs s ∧ DecRegs s

/-! ### What the traces say -/

/-- Output tokens carrying bits. -/
def outBits (bits : List Bool) : List OutTok := bits.map OutTok.bit

/-- Input tokens carrying bits. -/
def inToks (bits : List Bool) : List InTok := bits.map InTok.bit

/-- What the encoder's registers are after taking `trEI`: the tokens put out and those still queued are the packed
fields of the input taken so far, less the field of the run in progress, which is `ecnt` at polarity `ebit`;
after the end marker, all fields and then `CLOSE(0)` (R103 to R108, R114). -/
def EncTraced (s : State) : Prop :=
  match s.enc.est with
  | .atRunStart => s.trEI = [] ∧ s.trEO = [] ∧ s.enc.eoq = []
  | .inRun =>
    ∃ B F, s.trEI = inToks B ∧ B.getLast? = some s.enc.ebit ∧
      encodeFields s.W B = F ++ [s.enc.ecnt.toNat] ∧
      s.trEO ++ s.enc.eoq = outBits (pack s.W F)
  | .done =>
    ∃ B, s.trEI = inToks B ++ [.fin] ∧
      s.trEO ++ s.enc.eoq = outBits (pack s.W (encodeFields s.W B)) ++ [.close false]

/-- The unpacker's registers after the wire bits `X`: `dn` counts the tail bits and the low `dn` bits of `dsh` are
those bits (R28, R29, R131, R137). -/
def Unpacker (s : State) (X : List Bool) : Prop :=
  s.dec.dn.toNat = tailCount s.W X ∧
  s.dec.dsh.toNat % 2 ^ s.dec.dn.toNat = wireValue (tailBits s.W X)

/-- The tokens the decoder has still to put out for what it has taken. -/
def decPending {W : Nat} (d : Dec W) : List OutTok :=
  match d.dst with
  | .atRunStart => []
  | .inRun => List.replicate d.drem.toNat (OutTok.bit d.dpol)
  | .done => if d.dcl then [OutTok.close d.derr] else []

/-- What the decoder's registers are after taking `trDI`: the tokens put out and those pending are the decoded
complete fields, closed after the end marker by `CLOSE(derr)`, where `derr` says whether a tail was left
(R131 to R138, R140, R143); `dpol` is the number of completed fields modulo 2 (R27). -/
def DecTraced (s : State) : Prop :=
  match s.dec.dst with
  | .atRunStart =>
    ∃ X, s.trDI = inToks X ∧ Unpacker s X ∧ s.dec.dpol = parity (fieldCount s.W X) ∧
      s.trDO = outBits (decodeFields (unpackFields s.W X))
  | .inRun =>
    ∃ X, s.trDI = inToks X ∧ Unpacker s X ∧ (!s.dec.dpol) = parity (fieldCount s.W X) ∧
      s.trDO ++ decPending s.dec = outBits (decodeFields (unpackFields s.W X))
  | .done =>
    ∃ X, s.trDI = inToks X ++ [.fin] ∧ Unpacker s X ∧ s.dec.dpol = parity (fieldCount s.W X) ∧
      s.dec.derr = decide (tailCount s.W X ≠ 0) ∧
      s.trDO ++ decPending s.dec
        = outBits (decodeFields (unpackFields s.W X)) ++ [.close s.dec.derr]

/-! ### Words for claims -/

/-- `EBIT b`: the constructor `ebit0` or `ebit1` (R81). -/
def ebit (b : Bool) : Instr := if b then .ebit1 else .ebit0

/-- `DBIT b`: the constructor `dbit0` or `dbit1` (R82). -/
def dbit (b : Bool) : Instr := if b then .dbit1 else .dbit0

/-- An edge at which the environment does nothing to `ENC`. -/
def EncIdle (p : PortIn) : Prop := p.encRst = false ∧ p.eiValid = false ∧ p.eoReady = false

/-- An edge at which the environment does nothing to `DEC`. -/
def DecIdle (p : PortIn) : Prop := p.decRst = false ∧ p.diValid = false ∧ p.doReady = false

/-- An edge with neither reset. -/
def NoReset (p : PortIn) : Prop := p.encRst = false ∧ p.decRst = false

/-- Two edges with the same pins for `DEC`. -/
def SameDecPins (p q : PortIn) : Prop :=
  p.decRst = q.decRst ∧ p.diValid = q.diValid ∧ p.diEnd = q.diEnd ∧ p.diBit = q.diBit ∧ p.doReady = q.doReady

/-- Two edges with the same pins for `ENC`. -/
def SameEncPins (p q : PortIn) : Prop :=
  p.encRst = q.encRst ∧ p.eiValid = q.eiValid ∧ p.eiEnd = q.eiEnd ∧ p.eiBit = q.eiBit ∧ p.eoReady = q.eoReady

/-- The invariant of the machine. -/
def CodecInv (s : State) : Prop := RegsOk s ∧ EncTraced s ∧ DecTraced s

end Sys2Proof.Machine
end

