-- ==== Sys2Proof/Certificates/Slice0/Obligations.lean ====
section
/-! DEFINITION. The statements for the provers. Each docstring names the rule or the sections of spec/ it rests on. -/

open Sys2Proof Sys2Proof.Machine

/-! ### The encoder's operations -/

/-- R103: `EBIT b` in `AT_RUN_START`, with its encoding `0b0b` on `EI`. A first 1 emits a field 0, which is `W` zero
bits; nothing else of the machine changes but the trace of `EI`. -/
def Obligations.EncoderFirstBit : Prop :=
  ∀ (s : State) (b : Bool), s.enc.est = .atRunStart → s.enc.eoq = [] →
    decodeToken .ei (tokCode false b) = ebit b ∧
    exec (ebit b) s = .next { s with
      enc := { est := .inRun, ebit := b, ecnt := 1#s.W,
               eoq := if b then List.replicate s.W (OutTok.bit false) else [] }
      trEI := s.trEI ++ [.bit b] }

/-- R104: `EBIT b` continuing a run increments `ecnt`, without wrapping, and emits nothing. -/
def Obligations.EncoderContinuesRun : Prop :=
  ∀ (s : State) (b : Bool), s.enc.est = .inRun → s.enc.eoq = [] → b = s.enc.ebit →
    s.enc.ecnt.toNat < maxCount s.W →
    decodeToken .ei (tokCode false b) = ebit b ∧
    exec (ebit b) s = .next { s with
      enc := { s.enc with ecnt := s.enc.ecnt + 1#s.W }
      trEI := s.trEI ++ [.bit b] } ∧
    (s.enc.ecnt + 1#s.W).toNat = s.enc.ecnt.toNat + 1

/-- R105: `EBIT b` on a full count emits the field `M`, `W` ones, and the field 0, `W` zeros, and restarts the count
at 1. -/
def Obligations.EncoderOverflowSplits : Prop :=
  ∀ (s : State) (b : Bool), s.enc.est = .inRun → s.enc.eoq = [] → b = s.enc.ebit →
    s.enc.ecnt.toNat = maxCount s.W →
    decodeToken .ei (tokCode false b) = ebit b ∧
    exec (ebit b) s = .next { s with
      enc := { s.enc with
        ecnt := 1#s.W
        eoq := List.replicate s.W (OutTok.bit true) ++ List.replicate s.W (OutTok.bit false) }
      trEI := s.trEI ++ [.bit b] }

/-- R106: `EBIT b` of the other value emits the field `ecnt`, most significant bit first, whatever `ecnt` is. -/
def Obligations.EncoderChangesRun : Prop :=
  ∀ (s : State) (b : Bool), s.enc.est = .inRun → s.enc.eoq = [] → b ≠ s.enc.ebit →
    decodeToken .ei (tokCode false b) = ebit b ∧
    exec (ebit b) s = .next { s with
      enc := { s.enc with ebit := b, ecnt := 1#s.W, eoq := outBits (bitsOfNat s.W s.enc.ecnt.toNat) }
      trEI := s.trEI ++ [.bit b] }

/-- R107: `EEND`, either code of it, on an empty input emits `CLOSE(0)` alone. -/
def Obligations.EncoderEndOfEmptyInput : Prop :=
  ∀ (s : State) (x : Bool), s.enc.est = .atRunStart → s.enc.eoq = [] →
    decodeToken .ei (tokCode true x) = .eend ∧
    exec .eend s = .next { s with
      enc := { s.enc with est := .done, eoq := [.close false] }
      trEI := s.trEI ++ [.fin] }

/-- R108: `EEND` with a run in progress emits the field `ecnt` and then `CLOSE(0)`; `ebit` and `ecnt` keep their
values. -/
def Obligations.EncoderEndOfRun : Prop :=
  ∀ (s : State) (x : Bool), s.enc.est = .inRun → s.enc.eoq = [] →
    decodeToken .ei (tokCode true x) = .eend ∧
    exec .eend s = .next { s with
      enc := { s.enc with
        est := .done, eoq := outBits (bitsOfNat s.W s.enc.ecnt.toNat) ++ [.close false] }
      trEI := s.trEI ++ [.fin] }

/-- First clause, R100 and R109: in `DONE`, and while there is output to give, `ei_ready` is 0. Second clause, the model's
reading (log 4, DEDUCED; no step uses it): `exec` of an encoder instruction that is not taken answers the state
unchanged. -/
def Obligations.EncoderHoldsItsInput : Prop :=
  ∀ (s : State) (p : PortIn),
    (portsOut p s).eiReady = (decide (s.enc.est ≠ .done) && decide (s.enc.eoq = []) && !p.encRst) ∧
    (s.enc.est = .done ∨ s.enc.eoq ≠ [] →
      exec .ebit0 s = .next s ∧ exec .ebit1 s = .next s ∧ exec .eend s = .next s)

/-! ### The decoder's operations -/

/-- R131: `DBIT b` of a field not yet complete: the bit enters `dsh` at bit 0, the earlier bits move up by one, and
`dn` counts it. -/
def Obligations.DecoderShiftsBit : Prop :=
  ∀ (s : State) (b : Bool), s.dec.dst = .atRunStart → s.dec.dn.toNat < s.W - 1 →
    decodeToken .di (tokCode false b) = dbit b ∧
    ∃ (v : CountField s.W) (n : BitCount s.W),
      exec (dbit b) s = .next { s with
        dec := { s.dec with dsh := v, dn := n }
        trDI := s.trDI ++ [.bit b] } ∧
      n.toNat = s.dec.dn.toNat + 1 ∧
      ∀ i, i < s.W → v.getLsbD i = if i = 0 then b else s.dec.dsh.getLsbD (i - 1)

/-- R132: `DBIT b` completing a field `c = {dsh[W-2:0], b}`: the unpacker's registers are written and the field
operation that `c` selects is executed in the same operation. -/
def Obligations.DecoderCompletesField : Prop :=
  ∀ (s : State) (b : Bool), Config.WidthOk s.W → s.dec.dst = .atRunStart → s.dec.dn.toNat = s.W - 1 →
    decodeToken .di (tokCode false b) = dbit b ∧
    ∃ c : CountField s.W,
      (∀ i, i < s.W → c.getLsbD i = if i = 0 then b else s.dec.dsh.getLsbD (i - 1)) ∧
      exec (dbit b) s =
        exec (if c.toNat = 0 then .esc else .run c.toNat) { s with
          dec := { s.dec with dsh := c, dn := 0 }
          trDI := s.trDI ++ [.bit b] }

/-- The next state of `DBIT b` when it completes a field (41_decoder sections 2 and 3 together). -/
def Obligations.DecoderFieldTakesEffect : Prop :=
  ∀ (s : State) (b : Bool), Config.WidthOk s.W → s.dec.dst = .atRunStart → s.dec.dn.toNat = s.W - 1 →
    ∃ c : CountField s.W,
      (∀ i, i < s.W → c.getLsbD i = if i = 0 then b else s.dec.dsh.getLsbD (i - 1)) ∧
      exec (dbit b) s = .next { s with
        dec := if c.toNat = 0 then { s.dec with dsh := c, dn := 0, dpol := !s.dec.dpol }
               else { s.dec with dsh := c, dn := 0, drem := c, dst := .inRun }
        trDI := s.trDI ++ [.bit b] }

/-- R133: `RUN n` loads `drem` with `n` and enters `IN_RUN`, and changes nothing else. -/
def Obligations.RunLoadsTheCounter : Prop :=
  ∀ (s : State) (n : Nat), s.dec.dst = .atRunStart → s.dec.dn.toNat = 0 → 1 ≤ n → n ≤ maxCount s.W →
    decodeField (BitVec.ofNat s.W n) = .run n ∧
    ∃ v : CountField s.W, v.toNat = n ∧
      exec (.run n) s = .next { s with dec := { s.dec with drem := v, dst := .inRun } }

/-- R134: `ESC` complements `dpol` and changes nothing else. -/
def Obligations.EscapeFlipsPolarity : Prop :=
  ∀ s : State, s.dec.dst = .atRunStart → s.dec.dn.toNat = 0 →
    decodeField (0#s.W) = .esc ∧
    exec .esc s = .next { s with dec := { s.dec with dpol := !s.dec.dpol } }

/-- R136: `DEND`, either code of it, on a field boundary: the clean end. -/
def Obligations.DecoderCleanEnd : Prop :=
  ∀ (s : State) (x : Bool), s.dec.dst = .atRunStart → s.dec.dn.toNat = 0 →
    decodeToken .di (tokCode true x) = .dend ∧
    exec .dend s = .next { s with
      dec := { s.dec with dcl := true, dst := .done }
      trDI := s.trDI ++ [.fin] }

/-- R137, R166: `DEND` inside a field takes TruncatedInput: `derr`, `dcl` and `dst` are written, `dn` and `dsh` keep
the tail, no bit is put out for it and `dpol` is not complemented. -/
def Obligations.TruncatedInputIsTaken : Prop :=
  ∀ (s : State) (x : Bool), s.dec.dst = .atRunStart → s.dec.dn.toNat ≠ 0 →
    decodeToken .di (tokCode true x) = .dend ∧
    exec .dend s = .next { s with
      dec := { s.dec with derr := true, dcl := true, dst := .done }
      trDI := s.trDI ++ [.fin] }

/-- First clause, R130 and R139: in `IN_RUN` and in `DONE` `di_ready` is 0. Second clause, the model's reading (log 4,
DEDUCED; no step uses it): `exec` of a token instruction of the decoder that is not taken answers the state
unchanged. -/
def Obligations.DecoderHoldsItsInput : Prop :=
  ∀ (s : State) (p : PortIn),
    (portsOut p s).diReady = (decide (s.dec.dst = .atRunStart) && !p.decRst) ∧
    (s.dec.dst ≠ .atRunStart →
      exec .dbit0 s = .next s ∧ exec .dbit1 s = .next s ∧ exec .dend s = .next s)

/-- The model's choice (logs 5, 6, 7), where no rule gives an effect: a `RUN` operand outside `[1, M]` is refused by
name; a field operation where no field has just been completed does nothing; a wire bit in a state with
`dn > W - 1` faults by name. -/
def Obligations.OutOfRuleCasesAreNamed : Prop :=
  ∀ s : State,
    (∀ n, n = 0 ∨ maxCount s.W < n → exec (.run n) s = .refused (.fieldOutOfRange n)) ∧
    (s.dec.dst ≠ .atRunStart ∨ s.dec.dn.toNat ≠ 0 →
      exec .esc s = .next s ∧ ∀ n, 1 ≤ n → n ≤ maxCount s.W → exec (.run n) s = .next s) ∧
    (s.dec.dst = .atRunStart → s.W - 1 < s.dec.dn.toNat →
      exec .dbit0 s = .fault .bitCountPastField ∧ exec .dbit1 s = .fault .bitCountPastField)

/-! ### The output steps -/

/-- R110: `eo_valid` and the code on `EO`, and `EOPOP`, which removes the head of `eoq` in any state of `est`; the
input is held meanwhile. -/
def Obligations.EncoderOutputStep : Prop :=
  ∀ (s : State) (p : PortIn) (ps : List PortIn), s.edges = p :: ps →
    (portsOut p s).eoValid = (decide (s.enc.eoq ≠ []) && !p.encRst) ∧
    ((portsOut p s).eoValid = false → (portsOut p s).eoEnd = false ∧ (portsOut p s).eoBit = false) ∧
    ∀ t q, s.enc.eoq = t :: q → p.encRst = false →
      tokCode (portsOut p s).eoEnd (portsOut p s).eoBit = codeOfOutTok t ∧
      (portsOut p s).eiReady = false ∧
      (p.eoReady = true → DecIdle p →
        step s = .next { s with enc := { s.enc with eoq := q }, trEO := s.trEO ++ [t], edges := ps })

/-- R135: `do_valid`, and `DOBIT`, which puts out `BIT(dpol)` and counts `drem` down; the last copy complements `dpol`
and reopens the input. -/
def Obligations.DecoderRunStep : Prop :=
  ∀ (s : State) (p : PortIn) (ps : List PortIn), s.edges = p :: ps →
    (portsOut p s).doValid = ((decide (s.dec.dst = .inRun) || s.dec.dcl) && !p.decRst) ∧
    (s.dec.dst = .inRun → 1 ≤ s.dec.drem.toNat → p.decRst = false →
      (portsOut p s).doEnd = false ∧ (portsOut p s).doBit = s.dec.dpol ∧
      (p.doReady = true → EncIdle p →
        step s = .next { s with
          dec := if s.dec.drem.toNat = 1
                 then { s.dec with drem := 0, dpol := !s.dec.dpol, dst := .atRunStart }
                 else { s.dec with drem := s.dec.drem - 1#s.W }
          trDO := s.trDO ++ [.bit s.dec.dpol]
          edges := ps }))

/-- R138: `DOCLOSE` puts out `CLOSE(derr)` once and clears `dcl`; afterwards the decoder is quiescent. The pins are 0
while nothing is offered. -/
def Obligations.DecoderCloseStep : Prop :=
  ∀ (s : State) (p : PortIn) (ps : List PortIn), s.edges = p :: ps →
    ((portsOut p s).doValid = false → (portsOut p s).doEnd = false ∧ (portsOut p s).doBit = false) ∧
    (s.dec.dst = .done → s.dec.dcl = true → p.decRst = false →
      (portsOut p s).doEnd = true ∧ (portsOut p s).doBit = s.dec.derr ∧
      (p.doReady = true → EncIdle p → ∃ t : State,
        step s = .next t ∧
        t = { s with
          dec := { s.dec with dcl := false }
          trDO := s.trDO ++ [.close s.dec.derr]
          edges := ps } ∧
        ∀ q : PortIn, (portsOut q t).doValid = false ∧ (portsOut q t).diReady = false))

/-- R35, R87: the three status outputs. -/
def Obligations.StatusOutputsFollowTheState : Prop :=
  ∀ (s : State) (p : PortIn),
    (portsOut p s).encState = (match s.enc.est with
      | .atRunStart => 0b00#2
      | .inRun => 0b01#2
      | .done => 0b10#2) ∧
    (portsOut p s).decState = (match s.dec.dst with
      | .atRunStart => 0b00#2
      | .inRun => 0b01#2
      | .done => 0b10#2) ∧
    (portsOut p s).decErr = s.dec.derr

/-! ### Reset -/

/-- The machine after reset at every width: the registers of 10_state section 5, empty traces, and the default width 8
of 00_scope section 3. That `State.reset` has an empty list of edges is the model's choice (log 2). -/
def Obligations.ResetValues : Prop :=
  State.reset = State.resetAt 8 ∧
  ∀ W : Nat,
    State.resetAt W =
      { W := W
        enc := { est := .atRunStart, ebit := false, ecnt := 0, eoq := [] }
        dec := { dst := .atRunStart, dpol := false, dsh := 0, dn := 0, drem := 0, derr := false, dcl := false }
        trEI := [], trEO := [], trDI := [], trDO := [], edges := [] }

/-- R36, R180: an edge with a unit's reset at 1 gives that unit its reset values, whatever it held, empties its traces,
transfers no token of it, holds its ready and valid outputs at 0 and leaves the other unit alone; with both resets
both units are reset. The status outputs follow. Nothing else leaves `DONE` or clears `derr`. -/
def Obligations.ResetStep : Prop :=
  ∀ (s : State) (p : PortIn) (ps : List PortIn), s.edges = p :: ps →
    (p.encRst = true →
      (portsOut p s).eiReady = false ∧ (portsOut p s).eoValid = false ∧
      (DecIdle p → step s = .next { s with
        enc := { est := .atRunStart, ebit := false, ecnt := 0, eoq := [] }
        trEI := [], trEO := [], edges := ps })) ∧
    (p.decRst = true →
      (portsOut p s).diReady = false ∧ (portsOut p s).doValid = false ∧
      (EncIdle p → step s = .next { s with
        dec := { dst := .atRunStart, dpol := false, dsh := 0, dn := 0, drem := 0, derr := false,
                 dcl := false }
        trDI := [], trDO := [], edges := ps })) ∧
    (p.encRst = true → p.decRst = true → ∃ t : State, step s = .next t ∧
      t = { s with
        enc := { est := .atRunStart, ebit := false, ecnt := 0, eoq := [] }
        dec := { dst := .atRunStart, dpol := false, dsh := 0, dn := 0, drem := 0, derr := false,
                 dcl := false }
        trEI := [], trEO := [], trDI := [], trDO := [], edges := ps } ∧
      ∀ q : PortIn, (portsOut q t).encState = 0 ∧ (portsOut q t).decState = 0 ∧
        (portsOut q t).decErr = false) ∧
    (∀ t : State, step s = .next t →
      (p.encRst = false → s.enc.est = .done → t.enc.est = .done) ∧
      (p.decRst = false → (s.dec.dst = .done → t.dec.dst = .done) ∧
        (s.dec.derr = true → t.dec.derr = true)))

/-! ### Encodings -/

/-- R80: the four codes of `TOK`, on an input stream and on an output stream. -/
def Obligations.TokenCodes : Prop :=
  (∀ endBit bit : Bool,
    codeEnd (tokCode endBit bit) = endBit ∧ codeBit (tokCode endBit bit) = bit ∧
    inTokOfCode (tokCode endBit bit) = (if endBit then .fin else .bit bit) ∧
    outTokOfCode (tokCode endBit bit) = (if endBit then .close bit else .bit bit)) ∧
  tokCode false false = 0b00#2 ∧ tokCode false true = 0b01#2 ∧
  tokCode true false = 0b10#2 ∧ tokCode true true = 0b11#2 ∧
  (∀ t : OutTok, outTokOfCode (codeOfOutTok t) = t)

/-- R101: `emit_field(v)` appends exactly the `W` tokens `BIT(v[W-1])` to `BIT(v[0])`, in that order, and changes
nothing else. -/
def Obligations.EmitFieldAppendsTheBits : Prop :=
  ∀ (W : Nat) (v : CountField W) (e : Enc W), ∃ out : List OutTok,
    emitField v e = { e with eoq := e.eoq ++ out } ∧ out.length = W ∧
    ∀ j, j < W → out[j]? = some (OutTok.bit (v.getLsbD (W - 1 - j)))

/-- R91: the operand of a field is `sum over j of x_j * 2^(W-1-j)`, and packing it again gives its wire bits
(30_encoding section 2, 20_memory section 3). -/
def Obligations.FieldOperandIsTheSumOfItsBits : Prop :=
  ∀ bits : List Bool,
    wireValue bits =
      ((List.range bits.length).map
        (fun j => (bits.getD j false).toNat * 2 ^ (bits.length - 1 - j))).sum ∧
    bitsOfNat bits.length (wireValue bits) = bits

/-- R80 to R82, R85: words written out from the spec's tables decode to the operations they stand for. -/
def Obligations.WrittenOutWordsDecode : Prop :=
  decode 8 (.tok .ei) [false, false] = .ok .ebit0 ∧
  decode 8 (.tok .ei) [false, true] = .ok .ebit1 ∧
  decode 8 (.tok .ei) [true, false] = .ok .eend ∧
  decode 8 (.tok .ei) [true, true] = .ok .eend ∧
  decode 8 (.tok .di) [false, false] = .ok .dbit0 ∧
  decode 8 (.tok .di) [false, true] = .ok .dbit1 ∧
  decode 8 (.tok .di) [true, false] = .ok .dend ∧
  decode 8 (.tok .di) [true, true] = .ok .dend ∧
  decode 8 .fld [false, false, false, false, false, false, false, false] = .ok .esc ∧
  decode 8 .fld [false, false, false, false, false, false, false, true] = .ok (.run 1) ∧
  decode 8 .fld [true, false, false, false, false, false, false, false] = .ok (.run 128) ∧
  decode 2 .fld [true, false] = .ok (.run 2) ∧
  decode 3 .fld [true, false, true] = .ok (.run 5)

/-- Decode and encode agree: for every well-formed operation at every width, with every operand its encoding admits. -/
def Obligations.DecodeOfEncode : Prop :=
  ∀ (W : Nat) (i : Instr), i.wf W = true → decode W (sourceOf i) (encode W i) = .ok i

/-- R88: every list of bits of the right length is an encoding, of a well-formed operation read at that source; a
field's bits are the operation's own encoding, and a token's are so but for the ignored bit of an end token. That
`encode` writes this ignored bit as 0, so that the word `0b11` encodes back to `0b10`, is the model's choice (log 14). -/
def Obligations.EveryWordHasAMeaning : Prop :=
  ∀ (W : Nat) (src : Source) (bits : List Bool), Config.WidthOk W →
    bits.length = (match src with
      | .tok _ => 2
      | .fld => W) →
    ∃ i : Instr, decode W src bits = .ok i ∧ i.wf W = true ∧ sourceOf i = src ∧
      (encode W i = bits ∨
        (∃ st, src = .tok st) ∧ bits = [true, true] ∧ encode W i = [true, false])

/-! ### The step -/

/-- A step runs the decoded operation: at an edge where a unit's input stream is valid and ready and nothing happens in
the other unit, the token on the pins is transferred (20_memory section 2) and the step is the operation its code
selects (30_encoding section 3), the step adding only that the edge is past; where both units take a token, the
step runs both operations. Where a token of `DI` and the pending `CLOSE` could both be transferred, in `AT_RUN_START` with
`dcl == 1`, which no run reaches, that the token of `DI` is taken is the model's choice (log 17). -/
def Obligations.StepRunsTheDecodedOperation : Prop :=
  ∀ (s : State) (p : PortIn) (ps : List PortIn), s.edges = p :: ps →
    (p.eiValid = true → (portsOut p s).eiReady = true → DecIdle p →
      step s = exec (decodeToken .ei (tokCode p.eiEnd p.eiBit)) { s with edges := ps }) ∧
    (p.diValid = true → (portsOut p s).diReady = true → EncIdle p →
      step s = exec (decodeToken .di (tokCode p.diEnd p.diBit)) { s with edges := ps }) ∧
    (p.eiValid = true → (portsOut p s).eiReady = true →
      p.diValid = true → (portsOut p s).diReady = true →
      ∃ u : State,
        exec (decodeToken .ei (tokCode p.eiEnd p.eiBit)) { s with edges := ps } = .next u ∧
        step s = exec (decodeToken .di (tokCode p.diEnd p.diBit)) u)

/-- R53: at an edge with no reset and no stream that is both valid and ready, nothing of any stream is consumed or
produced and no register changes: the units wait. -/
def Obligations.StepWithoutTransferWaits : Prop :=
  ∀ (s : State) (p : PortIn) (ps : List PortIn), s.edges = p :: ps → NoReset p →
    ¬ (p.eiValid = true ∧ (portsOut p s).eiReady = true) →
    ¬ ((portsOut p s).eoValid = true ∧ p.eoReady = true) →
    ¬ (p.diValid = true ∧ (portsOut p s).diReady = true) →
    ¬ ((portsOut p s).doValid = true ∧ p.doReady = true) →
    step s = .next { s with edges := ps }

/-- R54: the block keeps a token on offer, unchanged, until the edge at which it is transferred, on `EO` and on `DO`. -/
def Obligations.OfferedTokensAreHeld : Prop :=
  ∀ (s t : State) (p q : PortIn) (ps : List PortIn), RegsOk s → s.edges = p :: ps → NoReset p → NoReset q →
    step s = .next t →
    ((portsOut p s).eoValid = true → p.eoReady = false →
      (portsOut q t).eoValid = true ∧ (portsOut q t).eoEnd = (portsOut p s).eoEnd ∧
      (portsOut q t).eoBit = (portsOut p s).eoBit) ∧
    ((portsOut p s).doValid = true → p.doReady = false →
      (portsOut q t).doValid = true ∧ (portsOut q t).doEnd = (portsOut p s).doEnd ∧
      (portsOut q t).doBit = (portsOut p s).doBit)

/-! ### Frames -/

/-- Frame of the encoder's instructions `EBIT0`, `EBIT1`, `EEND`: they always answer a next state, and change only
`est`, `ebit`, `ecnt`, `eoq` and the trace of `EI`; `eoq` only grows. There is no memory. -/
def Obligations.EncoderInstructionsFrame : Prop :=
  ∀ (s : State) (i : Instr), i = .ebit0 ∨ i = .ebit1 ∨ i = .eend →
    ∃ (e : Enc s.W) (tr : List InTok) (out : List OutTok),
      exec i s = .next { s with enc := e, trEI := tr } ∧ e.eoq = s.enc.eoq ++ out ∧
      (i = .eend → e.ebit = s.enc.ebit ∧ e.ecnt = s.enc.ecnt)

/-- Frame of the decoder's instructions: a next state of `DBIT0`, `DBIT1`, `DEND` differs only in registers of `DEC`
and the trace of `DI`, and one of `RUN`, `ESC` only in registers of `DEC`; what each leaves unchanged is named.
`derr` and `dcl` are written by `DEND` alone. There is no memory. -/
def Obligations.DecoderInstructionsFrame : Prop :=
  ∀ (s t : State) (i : Instr),
    (i = .dbit0 ∨ i = .dbit1 → exec i s = .next t →
      ∃ (d : Dec s.W) (tr : List InTok), t = { s with dec := d, trDI := tr } ∧
        d.derr = s.dec.derr ∧ d.dcl = s.dec.dcl) ∧
    (i = .dend → exec i s = .next t →
      ∃ (d : Dec s.W) (tr : List InTok), t = { s with dec := d, trDI := tr } ∧
        d.dpol = s.dec.dpol ∧ d.dsh = s.dec.dsh ∧ d.dn = s.dec.dn ∧ d.drem = s.dec.drem) ∧
    ((∃ n, i = .run n) → exec i s = .next t →
      ∃ d : Dec s.W, t = { s with dec := d } ∧
        d.dpol = s.dec.dpol ∧ d.dsh = s.dec.dsh ∧ d.dn = s.dec.dn ∧ d.derr = s.dec.derr ∧
        d.dcl = s.dec.dcl) ∧
    (i = .esc → exec i s = .next t →
      ∃ d : Dec s.W, t = { s with dec := d } ∧
        d.dst = s.dec.dst ∧ d.dsh = s.dec.dsh ∧ d.dn = s.dec.dn ∧ d.drem = s.dec.drem ∧
        d.derr = s.dec.derr ∧ d.dcl = s.dec.dcl)

/-- R8: the units share no state. What a step does to `DEC` and its traces does not depend on the state, the traces or
the pins of `ENC`. -/
def Obligations.DecoderIsIndependentOfEncoder : Prop :=
  ∀ (W : Nat) (e₁ e₂ : Enc W) (d : Dec W) (i₁ i₂ di : List InTok) (o₁ o₂ dO : List OutTok)
    (p₁ p₂ : PortIn) (ps₁ ps₂ : List PortIn) (t₁ : State), SameDecPins p₁ p₂ →
    step ⟨W, e₁, d, i₁, o₁, di, dO, p₁ :: ps₁⟩ = .next t₁ →
    ∃ (e₁' e₂' : Enc W) (d' : Dec W) (i₁' i₂' di' : List InTok) (o₁' o₂' dO' : List OutTok),
      t₁ = ⟨W, e₁', d', i₁', o₁', di', dO', ps₁⟩ ∧
      step ⟨W, e₂, d, i₂, o₂, di, dO, p₂ :: ps₂⟩ = .next ⟨W, e₂', d', i₂', o₂', di', dO', ps₂⟩

/-- R8: what a step that answers a next state does to `ENC` and its traces does not depend on the state, the traces or
the pins of `DEC`. -/
def Obligations.EncoderIsIndependentOfDecoder : Prop :=
  ∀ (W : Nat) (e : Enc W) (d₁ d₂ : Dec W) (i i₁ i₂ : List InTok) (o o₁ o₂ : List OutTok)
    (p₁ p₂ : PortIn) (ps₁ ps₂ : List PortIn) (t₁ t₂ : State), SameEncPins p₁ p₂ →
    step ⟨W, e, d₁, i, o, i₁, o₁, p₁ :: ps₁⟩ = .next t₁ →
    step ⟨W, e, d₂, i, o, i₂, o₂, p₂ :: ps₂⟩ = .next t₂ →
    ∃ (e' : Enc W) (d₁' d₂' : Dec W) (i' i₁' i₂' : List InTok) (o' o₁' o₂' : List OutTok),
      t₁ = ⟨W, e', d₁', i', o', i₁', o₁', ps₁⟩ ∧ t₂ = ⟨W, e', d₂', i', o', i₂', o₂', ps₂⟩

/-! ### Invariants -/

/-- The invariant holds after reset at every legal width (10_state section 6 and section 7). -/
def Obligations.InvariantAtReset : Prop :=
  CodecInv State.reset ∧ ∀ (W : Nat) (ps : List PortIn), Config.WidthOk W → CodecInv { State.resetAt W with edges := ps }

/-- The register invariants of 10_state section 6 (R38 (a), (b); R39 (a), (b), (c), (e), which the spec derives) are
kept by every step, whatever the environment does. -/
def Obligations.RegisterInvariantIsKept : Prop :=
  ∀ s t : State, RegsOk s → step s = .next t → RegsOk t

/-- The relation between registers and traces is kept by every step, whatever the environment does: at every moment
the encoder has put out or queued exactly the packed fields of what it took, and the decoder has put out or pending
exactly the decoded fields of what it took (40_encoder section 6, 41_decoder section 6). -/
def Obligations.InvariantIsKept : Prop :=
  ∀ s t : State, CodecInv s → step s = .next t → CodecInv t

/-- Under the register invariant no step ends in a fault or a refusal: the machine never stops. -/
def Obligations.EveryStepSucceedsUnderTheInvariant : Prop :=
  ∀ s : State, RegsOk s → ∃ t : State, step s = .next t

/-- R5: no step changes the field width. -/
def Obligations.WidthNeverChanges : Prop :=
  ∀ s t : State, step s = .next t → t.W = s.W

/-- R31: `derr` is 0 from a reset of the decoder until `DEND` with `dn != 0` raises TruncatedInput, then 1 until the next
reset; `dec_err` shows it. -/
def Obligations.ErrorFlagIsSticky : Prop :=
  ∀ (s t : State) (p : PortIn) (ps : List PortIn), s.edges = p :: ps → step s = .next t →
    (p.decRst = true → t.dec.derr = false) ∧
    (p.decRst = false →
      (s.dec.derr = true → t.dec.derr = true) ∧
      (s.dec.derr = false →
        (t.dec.derr = true ↔
          p.diValid = true ∧ (portsOut p s).diReady = true ∧
          decodeToken .di (tokCode p.diEnd p.diBit) = .dend ∧ s.dec.dn.toNat ≠ 0))) ∧
    (portsOut p s).decErr = s.dec.derr

/-- R109, R139: in `DONE` a unit takes nothing and is ready for nothing, and `DONE` is left only by reset; in `IN_RUN`
the decoder takes nothing either. -/
def Obligations.DoneIsLeftOnlyByReset : Prop :=
  ∀ (s t : State) (p : PortIn) (ps : List PortIn), s.edges = p :: ps → step s = .next t →
    (s.enc.est = .done → (portsOut p s).eiReady = false ∧
      (p.encRst = false → t.enc.est = .done ∧ t.trEI = s.trEI)) ∧
    (s.dec.dst ≠ .atRunStart → (portsOut p s).diReady = false ∧
      (p.decRst = false → t.trDI = s.trDI)) ∧
    (s.dec.dst = .done → p.decRst = false → t.dec.dst = .done)

/-- R53, R66, R167: at one edge each stream transfers at most one token and recalls none, and a unit that is not reset
never transfers on both its streams. For the decoder in `AT_RUN_START` with `dcl == 1`, which no run reaches, this rests on
the model's choice (log 17). -/
def Obligations.AtMostOneTransferPerEdge : Prop :=
  ∀ (s t : State) (p : PortIn) (ps : List PortIn), s.edges = p :: ps → step s = .next t →
    (p.encRst = false →
      (t.trEI = s.trEI ∧ t.trEO = s.trEO) ∨
      (∃ x, t.trEI = s.trEI ++ [x] ∧ t.trEO = s.trEO) ∨
      (∃ y, t.trEI = s.trEI ∧ t.trEO = s.trEO ++ [y])) ∧
    (p.decRst = false →
      (t.trDI = s.trDI ∧ t.trDO = s.trDO) ∨
      (∃ x, t.trDI = s.trDI ++ [x] ∧ t.trDO = s.trDO) ∨
      (∃ y, t.trDI = s.trDI ∧ t.trDO = s.trDO ++ [y]))

/-- R9: what a unit has put out or has pending is a function of the width and of what it took in, and of nothing else. -/
def Obligations.OutputIsAFunctionOfInput : Prop :=
  ∀ s t : State, CodecInv s → CodecInv t → s.W = t.W →
    (s.trEI = t.trEI → s.trEO ++ s.enc.eoq = t.trEO ++ t.enc.eoq) ∧
    (s.trDI = t.trDI → s.trDO ++ decPending s.dec = t.trDO ++ decPending t.dec)

/-- R61: in an invocation, a unit that has taken `END` has put out or holds pending exactly one `CLOSE`, as its last
token, with `e = 0` on `EO` and `e = derr` on `DO`; a unit that has not has put out none. -/
def Obligations.CloseOnceAndLast : Prop :=
  ∀ s : State, CodecInv s →
    (InTok.fin ∈ s.trEI →
      ∃ bits, s.trEO ++ s.enc.eoq = outBits bits ++ [.close false]) ∧
    (InTok.fin ∉ s.trEI → ∃ bits, s.trEO ++ s.enc.eoq = outBits bits) ∧
    (InTok.fin ∈ s.trDI →
      ∃ bits, s.trDO ++ decPending s.dec = outBits bits ++ [.close s.dec.derr]) ∧
    (InTok.fin ∉ s.trDI → ∃ bits, s.trDO ++ decPending s.dec = outBits bits)

/-! ### Runs of output steps -/

/-- R133 with R135: a willing sink takes the `drem` copies of `dpol` of a run, after which `dpol` is complemented and
the input is open again. -/
def Obligations.RunPutsOutItsCopies : Prop :=
  ∀ s : State, s.dec.dst = .inRun → 1 ≤ s.dec.drem.toNat →
    s.edges = List.replicate s.dec.drem.toNat { PortIn.idle with doReady := true } →
    Sys2Proof.core.run s.dec.drem.toNat s =
      .next { s with
        dec := { s.dec with drem := 0, dpol := !s.dec.dpol, dst := .atRunStart }
        trDO := s.trDO ++ List.replicate s.dec.drem.toNat (OutTok.bit s.dec.dpol)
        edges := [] }

/-- A field at a time (41_decoder section 6, which the spec derives): the `W` tokens of a field of value `c` and then
`c` transfers on `DO` put out `c` copies of `dpol` and end in `AT_RUN_START` with `dn == 0` and `dpol`
complemented. -/
def Obligations.FieldAtATime : Prop :=
  ∀ (s : State) (c : Nat), Config.WidthOk s.W → c ≤ maxCount s.W →
    s.dec.dst = .atRunStart → s.dec.dn.toNat = 0 →
    s.edges = (bitsOfNat s.W c).map (fun b => edgeDI (tokCode false b)) ++
      List.replicate c { PortIn.idle with doReady := true } →
    ∃ d : Dec s.W, d.dst = .atRunStart ∧ d.dn.toNat = 0 ∧ d.dpol = !s.dec.dpol ∧
      d.derr = s.dec.derr ∧ d.dcl = s.dec.dcl ∧
      Sys2Proof.core.run (s.W + c) s =
        .next { s with
          dec := d
          trDI := s.trDI ++ inToks (bitsOfNat s.W c)
          trDO := s.trDO ++ List.replicate c (OutTok.bit s.dec.dpol)
          edges := [] }

/-! ### Whole invocations -/

/-- The whole invocation of the encoder (40_encoder section 6, which the spec derives): at every width and whatever the
environment does, when an invocation is over the tokens on `EO` are the packed fields of `Encode` of the bits taken
on `EI`, and `CLOSE(0)`. -/
def Obligations.EncoderInvocation : Prop :=
  ∀ (W k : Nat) (ps : List PortIn) (t : State), Config.WidthOk W →
    Sys2Proof.core.run k { State.resetAt W with edges := ps } = .next t → EncOver t →
    ∃ B : List Bool, t.trEI = inToks B ++ [.fin] ∧
      t.trEO = outBits (pack W (encodeFields W B)) ++ [.close false]

/-- The whole invocation of the decoder (41_decoder section 6, which the spec derives): the decoded complete fields of
the wire bits taken, then `CLOSE(derr)`, where `derr` says whether a tail was left over. -/
def Obligations.DecoderInvocation : Prop :=
  ∀ (W k : Nat) (ps : List PortIn) (t : State), Config.WidthOk W →
    Sys2Proof.core.run k { State.resetAt W with edges := ps } = .next t → DecOver t →
    ∃ X : List Bool, t.trDI = inToks X ++ [.fin] ∧
      t.dec.derr = decide (tailCount W X ≠ 0) ∧
      t.trDO = outBits (decodeFields (unpackFields W X)) ++ [.close t.dec.derr]

/-- An invocation of the encoder ends (70_reset_and_hazards section 4): between a willing source of `B` and `END` and a
willing sink it is over, with the whole output put out. The exact number of edges, `N + W*F + 2`, is the model's choice
(log 12, one step an edge at which a ready unit takes what is offered): R197 gives it as a lower bound only, and no
timing is promised. -/
def Obligations.EncoderInvocationEnds : Prop :=
  ∀ (W : Nat) (B : List Bool), Config.WidthOk W →
    ∃ t : State,
      encDrive (B.length + W * (encodeFields W B).length + 2) (inToks B ++ [.fin]) (State.resetAt W)
        = .next t ∧
      EncOver t ∧ t.trEI = inToks B ++ [.fin] ∧
      t.trEO = outBits (pack W (encodeFields W B)) ++ [.close false]

/-- An invocation of the decoder ends (70_reset_and_hazards section 4): between a willing source of the wire bits `X`
and `END` and a willing sink it is over, with the whole output put out. The exact number of edges, `|X| + K + 2` with `K`
the number of bits put out, is the model's choice (log 12, as for the encoder): R197 gives it as a lower bound only. -/
def Obligations.DecoderInvocationEnds : Prop :=
  ∀ (W : Nat) (X : List Bool), Config.WidthOk W →
    ∃ t : State,
      decDrive (X.length + (decodeFields (unpackFields W X)).length + 2) (inToks X ++ [.fin])
        (State.resetAt W) = .next t ∧
      DecOver t ∧ t.trDI = inToks X ++ [.fin] ∧
      t.dec.derr = decide (tailCount W X ≠ 0) ∧
      t.trDO = outBits (decodeFields (unpackFields W X)) ++ [.close t.dec.derr]

/-! ### What the rules add up to -/

/-- `Decode(Encode(B)) == B` for every bit sequence and every width (41_decoder section 6; the document's round trip). -/
def Obligations.RoundTrip : Prop :=
  ∀ (W : Nat) (B : List Bool), Config.WidthOk W → decodeFields (encodeFields W B) = B

/-- `Unpack(Pack(F)) = (F, 0)` (20_memory section 5, which the spec derives). -/
def Obligations.UnpackOfPack : Prop :=
  ∀ (W : Nat) (F : List Nat), Config.WidthOk W → (∀ v ∈ F, v ≤ maxCount W) →
    unpackFields W (pack W F) = F ∧ tailCount W (pack W F) = 0 ∧ (pack W F).length = F.length * W

/-- The round trip through the hardware with `EO` wired to `DI` (20_memory R68; 41_decoder section 6, which the spec
derives): whatever else the environment does, short of a reset, when the decoder is over its sink has taken exactly
the bits the encoder took, and then `CLOSE(0)`. -/
def Obligations.LoopbackRoundTrip : Prop :=
  ∀ (W : Nat) (ps : List PortIn) (t : State), Config.WidthOk W → (∀ p ∈ ps, NoReset p) →
    loopRun ps (State.resetAt W) = .next t → DecOver t →
    ∃ B : List Bool, t.trEI = inToks B ++ [.fin] ∧ t.trDO = outBits B ++ [.close false] ∧
      t.dec.derr = false

/-- R68: at every edge of the looped-back system a token leaves `EO` exactly when one enters `DI`, and it is the same
bit, the encoder's `CLOSE(0)` being read as `END`. -/
def Obligations.LoopbackMovesTokens : Prop :=
  ∀ (s t : State) (p : PortIn), CodecInv s → NoReset p → loopEdge p s = .next t →
    (t.trEO = s.trEO ∧ t.trDI = s.trDI) ∨
    (∃ b, t.trEO = s.trEO ++ [.bit b] ∧ t.trDI = s.trDI ++ [.bit b]) ∨
    (t.trEO = s.trEO ++ [.close false] ∧ t.trDI = s.trDI ++ [.fin])

/-- The fields of one run (40_encoder section 6, which the spec derives): a run of `L` bits gives `q` pairs `M, 0` and a
last field `s` in `[1, M]`, with `q*M + s = L`; after a leading 0 when its value is 1. -/
def Obligations.FieldsOfOneRun : Prop :=
  ∀ (W L : Nat) (b : Bool), Config.WidthOk W → 1 ≤ L →
    ∃ q s : Nat, 1 ≤ s ∧ s ≤ maxCount W ∧ q * maxCount W + s = L ∧
      encodeFields W (List.replicate L b) =
        (if b then [0] else []) ++ (List.replicate q [maxCount W, 0]).flatten ++ [s]

/-- Every field the encoder emits lies in `[0, M]`, and the last of them is not 0 (40_encoder section 6, which the spec
derives). -/
def Obligations.EncodedFieldsInRange : Prop :=
  ∀ (W : Nat) (B : List Bool), Config.WidthOk W →
    (∀ v ∈ encodeFields W B, v ≤ maxCount W) ∧ (encodeFields W B).getLast? ≠ some 0

/-- The encoder's polarity invariant (40_encoder section 6, which the spec derives): in `IN_RUN` the parity of the
number of fields emitted so far is `ebit`. -/
def Obligations.EncoderPolarity : Prop :=
  ∀ s : State, CodecInv s → s.enc.est = .inRun →
    ∃ F : List Nat, s.trEO ++ s.enc.eoq = outBits (pack s.W F) ∧ parity F.length = s.enc.ebit

/-- The size of the output (40_encoder section 6, which the spec derives): at most `N + 1` fields when `M >= 2`, at most
`2N` at `W = 1`. -/
def Obligations.SizeOfTheOutput : Prop :=
  ∀ (W : Nat) (B : List Bool), Config.WidthOk W → B ≠ [] →
    (2 ≤ maxCount W → (encodeFields W B).length ≤ B.length + 1) ∧
    (W = 1 → (encodeFields W B).length ≤ 2 * B.length)
end

