-- ==== Sys2Proof/Laws/State.lean ====
section
/-! SUPPORT. One lemma per field of the state and per named update of it, so that no later proof unfolds an
update. All hold by unfolding. -/

namespace Sys2Proof.Machine

/-! ### The units' own updates -/

section Units
variable {W : Nat} (v : CountField W) (e : Enc W) (d : Dec W) (b : Bool)

@[simp] theorem emitField_est : (emitField v e).est = e.est := rfl
@[simp] theorem emitField_ebit : (emitField v e).ebit = e.ebit := rfl
@[simp] theorem emitField_ecnt : (emitField v e).ecnt = e.ecnt := rfl
@[simp] theorem emitField_eoq : (emitField v e).eoq = e.eoq ++ fieldToks v := rfl

@[simp] theorem emitClose_est : (emitClose e).est = e.est := rfl
@[simp] theorem emitClose_ebit : (emitClose e).ebit = e.ebit := rfl
@[simp] theorem emitClose_ecnt : (emitClose e).ecnt = e.ecnt := rfl
@[simp] theorem emitClose_eoq : (emitClose e).eoq = e.eoq ++ [OutTok.close false] := rfl

@[simp] theorem runField_dst : (runField v d).dst = .inRun := rfl
@[simp] theorem runField_dpol : (runField v d).dpol = d.dpol := rfl
@[simp] theorem runField_dsh : (runField v d).dsh = d.dsh := rfl
@[simp] theorem runField_dn : (runField v d).dn = d.dn := rfl
@[simp] theorem runField_drem : (runField v d).drem = v := rfl
@[simp] theorem runField_derr : (runField v d).derr = d.derr := rfl
@[simp] theorem runField_dcl : (runField v d).dcl = d.dcl := rfl

@[simp] theorem escField_dst : (escField d).dst = d.dst := rfl
@[simp] theorem escField_dpol : (escField d).dpol = !d.dpol := rfl
@[simp] theorem escField_dsh : (escField d).dsh = d.dsh := rfl
@[simp] theorem escField_dn : (escField d).dn = d.dn := rfl
@[simp] theorem escField_drem : (escField d).drem = d.drem := rfl
@[simp] theorem escField_derr : (escField d).derr = d.derr := rfl
@[simp] theorem escField_dcl : (escField d).dcl = d.dcl := rfl

@[simp] theorem unpacked_dst : (unpacked b d).dst = d.dst := rfl
@[simp] theorem unpacked_dpol : (unpacked b d).dpol = d.dpol := rfl
@[simp] theorem unpacked_dsh : (unpacked b d).dsh = shiftIn d.dsh b := rfl
@[simp] theorem unpacked_dn : (unpacked b d).dn = bitCount W 0 := rfl
@[simp] theorem unpacked_drem : (unpacked b d).drem = d.drem := rfl
@[simp] theorem unpacked_derr : (unpacked b d).derr = d.derr := rfl
@[simp] theorem unpacked_dcl : (unpacked b d).dcl = d.dcl := rfl

@[simp] theorem shiftBit_dst : (shiftBit b d).dst = d.dst := rfl
@[simp] theorem shiftBit_dpol : (shiftBit b d).dpol = d.dpol := rfl
@[simp] theorem shiftBit_dsh : (shiftBit b d).dsh = shiftIn d.dsh b := rfl
@[simp] theorem shiftBit_dn : (shiftBit b d).dn = bitCount W (d.dn.toNat + 1) := rfl
@[simp] theorem shiftBit_drem : (shiftBit b d).drem = d.drem := rfl
@[simp] theorem shiftBit_derr : (shiftBit b d).derr = d.derr := rfl
@[simp] theorem shiftBit_dcl : (shiftBit b d).dcl = d.dcl := rfl

@[simp] theorem cleanEnd_dst : (cleanEnd d).dst = .done := rfl
@[simp] theorem cleanEnd_dpol : (cleanEnd d).dpol = d.dpol := rfl
@[simp] theorem cleanEnd_dsh : (cleanEnd d).dsh = d.dsh := rfl
@[simp] theorem cleanEnd_dn : (cleanEnd d).dn = d.dn := rfl
@[simp] theorem cleanEnd_drem : (cleanEnd d).drem = d.drem := rfl
@[simp] theorem cleanEnd_derr : (cleanEnd d).derr = d.derr := rfl
@[simp] theorem cleanEnd_dcl : (cleanEnd d).dcl = true := rfl

@[simp] theorem raiseTruncatedInput_dst : (raiseTruncatedInput d).dst = .done := rfl
@[simp] theorem raiseTruncatedInput_dpol : (raiseTruncatedInput d).dpol = d.dpol := rfl
@[simp] theorem raiseTruncatedInput_dsh : (raiseTruncatedInput d).dsh = d.dsh := rfl
@[simp] theorem raiseTruncatedInput_dn : (raiseTruncatedInput d).dn = d.dn := rfl
@[simp] theorem raiseTruncatedInput_drem : (raiseTruncatedInput d).drem = d.drem := rfl
@[simp] theorem raiseTruncatedInput_derr : (raiseTruncatedInput d).derr = true := rfl
@[simp] theorem raiseTruncatedInput_dcl : (raiseTruncatedInput d).dcl = true := rfl

end Units

/-! ### Updates of the whole machine -/

section Whole
variable (s : State) (t : InTok) (d' : Dec s.W)

@[simp] theorem tookDI_W : (tookDI t s d').W = s.W := rfl
@[simp] theorem tookDI_enc : (tookDI t s d').enc = s.enc := rfl
@[simp] theorem tookDI_dec : (tookDI t s d').dec = d' := rfl
@[simp] theorem tookDI_trEI : (tookDI t s d').trEI = s.trEI := rfl
@[simp] theorem tookDI_trEO : (tookDI t s d').trEO = s.trEO := rfl
@[simp] theorem tookDI_trDI : (tookDI t s d').trDI = s.trDI ++ [t] := rfl
@[simp] theorem tookDI_trDO : (tookDI t s d').trDO = s.trDO := rfl
@[simp] theorem tookDI_edges : (tookDI t s d').edges = s.edges := rfl

@[simp] theorem resetEnc_W : (resetEnc s).W = s.W := rfl
@[simp] theorem resetEnc_enc : (resetEnc s).enc = Enc.reset s.W := rfl
@[simp] theorem resetEnc_dec : (resetEnc s).dec = s.dec := rfl
@[simp] theorem resetEnc_trEI : (resetEnc s).trEI = [] := rfl
@[simp] theorem resetEnc_trEO : (resetEnc s).trEO = [] := rfl
@[simp] theorem resetEnc_trDI : (resetEnc s).trDI = s.trDI := rfl
@[simp] theorem resetEnc_trDO : (resetEnc s).trDO = s.trDO := rfl
@[simp] theorem resetEnc_edges : (resetEnc s).edges = s.edges := rfl

@[simp] theorem resetDec_W : (resetDec s).W = s.W := rfl
@[simp] theorem resetDec_enc : (resetDec s).enc = s.enc := rfl
@[simp] theorem resetDec_dec : (resetDec s).dec = Dec.reset s.W := rfl
@[simp] theorem resetDec_trEI : (resetDec s).trEI = s.trEI := rfl
@[simp] theorem resetDec_trEO : (resetDec s).trEO = s.trEO := rfl
@[simp] theorem resetDec_trDI : (resetDec s).trDI = [] := rfl
@[simp] theorem resetDec_trDO : (resetDec s).trDO = [] := rfl
@[simp] theorem resetDec_edges : (resetDec s).edges = s.edges := rfl

@[simp] theorem doClose_W : (doClose s).W = s.W := rfl
@[simp] theorem doClose_enc : (doClose s).enc = s.enc := rfl
@[simp] theorem doClose_dec : (doClose s).dec = { s.dec with dcl := false } := rfl
@[simp] theorem doClose_trEI : (doClose s).trEI = s.trEI := rfl
@[simp] theorem doClose_trEO : (doClose s).trEO = s.trEO := rfl
@[simp] theorem doClose_trDI : (doClose s).trDI = s.trDI := rfl
@[simp] theorem doClose_trDO : (doClose s).trDO = s.trDO ++ [OutTok.close s.dec.derr] := rfl
@[simp] theorem doClose_edges : (doClose s).edges = s.edges := rfl

end Whole

end Sys2Proof.Machine
end

