-- ==== Sys2Proof/Laws/Word.lean ====
section
/-! SUPPORT. The width of `dn` is the spec's expression (10_state R29), and it is wide enough. -/

namespace Sys2Proof

/-- `dn` holds every value up to `W - 1` (R29). -/
theorem pred_lt_two_pow_dnWidth (W : Nat) : W - 1 < 2 ^ dnWidth W := Nat.lt_log2_self

/-- `dnWidth` is `max(1, ceil(log2 W))` (R29). -/
theorem dnWidth_eq (W : Nat) (h : 1 ≤ W) : dnWidth W = max 1 (Nat.clog 2 W) := by
  obtain rfl | h2 := Nat.eq_or_lt_of_le h
  · decide
  · have hc : Nat.clog 2 W = Nat.log 2 (W - 1) + 1 := by
      apply le_antisymm
      · rw [Nat.clog_le_iff_le_pow (by decide)]
        have := Nat.lt_pow_succ_log_self (b := 2) (by decide) (W - 1)
        omega
      · rw [Nat.succ_le_iff, Nat.lt_clog_iff_pow_lt (by decide)]
        have := Nat.pow_log_le_self 2 (x := W - 1) (by omega)
        omega
    rw [dnWidth, Nat.log2_eq_log_two, hc]
    omega

theorem maxCount_pos (W : Nat) (h : 1 ≤ W) : 1 ≤ maxCount W := by
  have : 2 ^ 1 ≤ 2 ^ W := Nat.pow_le_pow_right (by decide) h
  unfold maxCount
  omega

/-- A field holds at most `M` (R84). -/
theorem field_le_maxCount {W : Nat} (v : CountField W) : v.toNat ≤ maxCount W := by
  have := v.isLt
  unfold maxCount
  omega

/-- A value of at most `M` fits a field (R84). -/
theorem lt_two_pow_of_le_maxCount {W n : Nat} (h : n ≤ maxCount W) : n < 2 ^ W := by
  have : 0 < 2 ^ W := Nat.two_pow_pos W
  unfold maxCount at h
  omega

end Sys2Proof
end

