-- ==== Sys2Proof/Laws/Ops.lean ====
section
/-! SUPPORT. One lemma for each shared operation that says all it can do, to be cited instead of unfolding it. -/

namespace Sys2Proof.Machine

variable {W : Nat}

/-! ### Operands -/

theorem shiftIn_toNat (v : CountField W) (b : Bool) :
    (shiftIn v b).toNat = (2 * v.toNat + b.toNat) % 2 ^ W := by simp [shiftIn]

/-- `dn` holds every count up to `W - 1` exactly (R29). -/
theorem bitCount_toNat {n : Nat} (h : n ≤ W - 1) : (bitCount W n).toNat = n := by
  have := pred_lt_two_pow_dnWidth W
  simp only [bitCount, BitVec.toNat_ofNat]
  exact Nat.mod_eq_of_lt (by omega)

@[simp] theorem bitCount_zero_toNat : (bitCount W 0).toNat = 0 := by simp [bitCount]

@[simp] theorem fieldMax_toNat : (fieldMax W).toNat = maxCount W := by
  have : 0 < 2 ^ W := Nat.two_pow_pos W
  simp only [fieldMax, BitVec.toNat_ofNat]
  exact Nat.mod_eq_of_lt (by unfold maxCount; omega)

/-- A field's wire bits are those of its value (R57, R67). -/
theorem fieldBits_eq (v : CountField W) : fieldBits v = bitsOfNat W v.toNat := by
  simp [fieldBits, bitsOfNat, BitVec.getLsbD]

@[simp] theorem fieldBits_length (v : CountField W) : (fieldBits v).length = W := by simp [fieldBits]

@[simp] theorem fieldToks_length (v : CountField W) : (fieldToks v).length = W := by simp [fieldToks]

/-! ### Acceptance -/

theorem encAccepts_iff (e : Enc W) : encAccepts e = true ↔ e.est ≠ .done ∧ e.eoq = [] := by
  simp [encAccepts]

theorem decAccepts_iff (d : Dec W) : decAccepts d = true ↔ d.dst = .atRunStart := by
  simp [decAccepts]

theorem fieldReady_iff (d : Dec W) :
    fieldReady d = true ↔ d.dst = .atRunStart ∧ d.dn.toNat = 0 := by
  simp [fieldReady, decAccepts]

/-! ### Field operations -/

/-- A completed field of value 0 is `ESC`, any other is `RUN` (R85). -/
theorem fieldOp_cases (c : CountField W) (d : Dec W) :
    (c.toNat = 0 ∧ fieldOp c d = escField d) ∨ (1 ≤ c.toNat ∧ fieldOp c d = runField c d) := by
  unfold fieldOp
  split
  · exact .inl ⟨‹_›, rfl⟩
  · exact .inr ⟨by omega, rfl⟩

/-! ### Transfers -/

theorem offerEnc_of_accepts (t : InTok) (s : State) (e' : Enc s.W) (h : encAccepts s.enc = true) :
    offerEnc t s e' = { s with enc := e', trEI := s.trEI ++ [t] } := by simp [offerEnc, h]

theorem offerEnc_of_not_accepts (t : InTok) (s : State) (e' : Enc s.W)
    (h : encAccepts s.enc = false) : offerEnc t s e' = s := by simp [offerEnc, h]

/-- Everything an encoder bit can do to the unit (R103 to R106). -/
theorem encBit_cases (b : Bool) (e : Enc W) :
    (e.est = .atRunStart ∧ encBit b e = encFirst b e) ∨
    (e.est = .inRun ∧ b = e.ebit ∧ e.ecnt.toNat < maxCount W ∧ encBit b e = encContinue e) ∨
    (e.est = .inRun ∧ b = e.ebit ∧ e.ecnt.toNat = maxCount W ∧ encBit b e = encOverflow e) ∨
    (e.est = .inRun ∧ b ≠ e.ebit ∧ encBit b e = encChange b e) ∨
    (e.est = .done ∧ encBit b e = e) := by
  have hle := field_le_maxCount e.ecnt
  unfold encBit
  split
  · exact .inl ⟨‹_›, rfl⟩
  · split
    · split
      · exact .inr (.inl ⟨‹_›, ‹_›, ‹_›, rfl⟩)
      · exact .inr (.inr (.inl ⟨‹_›, ‹_›, by omega, rfl⟩))
    · exact .inr (.inr (.inr (.inl ⟨‹_›, ‹_›, rfl⟩)))
  · exact .inr (.inr (.inr (.inr ⟨‹_›, rfl⟩)))

/-- Everything the encoder's end marker can do to the unit (R107, R108). -/
theorem encEnd_cases (e : Enc W) :
    (e.est = .atRunStart ∧ encEnd e = { emitClose e with est := .done }) ∨
    (e.est = .inRun ∧ encEnd e = { emitClose (emitField e.ecnt e) with est := .done }) ∨
    (e.est = .done ∧ encEnd e = e) := by
  unfold encEnd
  split
  · exact .inl ⟨‹_›, rfl⟩
  · exact .inr (.inl ⟨‹_›, rfl⟩)
  · exact .inr (.inr ⟨‹_›, rfl⟩)

/-- Everything a wire bit can do when it answers a next state (R131, R132, R139). -/
theorem decBit_next {b : Bool} {s t : State} (h : decBit b s = .next t) :
    (s.dec.dst = .atRunStart ∧ s.dec.dn.toNat < s.W - 1 ∧ t = tookDI (.bit b) s (shiftBit b s.dec)) ∨
    (s.dec.dst = .atRunStart ∧ s.dec.dn.toNat = s.W - 1 ∧
      t = tookDI (.bit b) s (completeField b s.dec)) ∨
    (s.dec.dst ≠ .atRunStart ∧ t = s) := by
  unfold decBit at h
  split at h
  · have ha := (decAccepts_iff s.dec).1 ‹_›
    split at h
    · cases h
      exact .inl ⟨ha, ‹_›, rfl⟩
    · split at h
      · cases h
        exact .inr (.inl ⟨ha, ‹_›, rfl⟩)
      · cases h
  · cases h
    exact .inr (.inr ⟨fun ha => ‹¬ decAccepts s.dec = true› ((decAccepts_iff _).2 ha), rfl⟩)

/-- Everything the decoder's end marker can do (R136, R137, R139); it always answers a next state. -/
theorem execDend_cases (s : State) :
    (s.dec.dst = .atRunStart ∧ s.dec.dn.toNat = 0 ∧
      execDend s = .next (tookDI .fin s (cleanEnd s.dec))) ∨
    (s.dec.dst = .atRunStart ∧ s.dec.dn.toNat ≠ 0 ∧
      execDend s = .next (tookDI .fin s (raiseTruncatedInput s.dec))) ∨
    (s.dec.dst ≠ .atRunStart ∧ execDend s = .next s) := by
  unfold execDend
  split
  · have ha := (decAccepts_iff s.dec).1 ‹_›
    split
    · exact .inl ⟨ha, ‹_›, rfl⟩
    · exact .inr (.inl ⟨ha, ‹_›, rfl⟩)
  · exact .inr (.inr ⟨fun ha => ‹¬ decAccepts s.dec = true› ((decAccepts_iff _).2 ha), rfl⟩)

end Sys2Proof.Machine
end

