-- ==== Sys2Proof/Laws/Edge.lean ====
section
/-! SUPPORT. What one clock edge can do: one inversion lemma for each unit and one for the whole step. -/

namespace Sys2Proof.Machine

theorem andThen_next {r : Result} {f : State → Result} {t : State} (h : andThen r f = .next t) :
    ∃ u, r = .next u ∧ f u = .next t := by
  cases r with
  | next u => exact ⟨u, rfl, h⟩
  | fault x => cases h
  | refused x => cases h

/-- The effect on the encoder of the input token `t`. -/
def encTokOp {W : Nat} (t : InTok) (e : Enc W) : Enc W :=
  match t with
  | .bit b => encBit b e
  | .fin => encEnd e

/-- An encoder token always answers a next state. -/
theorem exec_encTok (t : InTok) (s : State) :
    exec (instrOfTok .ei t) s = .next (offerEnc t s (encTokOp t s.enc)) := by
  rcases t with (_ | _) | _ <;> rfl

/-- A wire bit runs `decBit`. -/
theorem exec_decBit (b : Bool) (s : State) : exec (instrOfTok .di (.bit b)) s = decBit b s := by
  cases b <;> rfl

theorem exec_decFin (s : State) : exec (instrOfTok .di .fin) s = execDend s := rfl

/-- The encoder's part of an edge never stops, and is one of: the reset, the operation of the token transferred on
`EI`, the transfer on `EO`, nothing (R53, R100, R110, R180). -/
theorem encEdge_cases (p : PortIn) (s : State) :
    (p.encRst = true ∧ encEdge p s = .next (resetEnc s)) ∨
    (p.encRst = false ∧ p.eiValid = true ∧ encAccepts s.enc = true ∧
      encEdge p s = .next { s with
        enc := encTokOp (inTokOfCode (eiCode p)) s.enc
        trEI := s.trEI ++ [inTokOfCode (eiCode p)] }) ∨
    (p.encRst = false ∧ ¬ (p.eiValid = true ∧ encAccepts s.enc = true) ∧ p.eoReady = true ∧
      ∃ t q, s.enc.eoq = t :: q ∧
        encEdge p s = .next { s with enc := { s.enc with eoq := q }, trEO := s.trEO ++ [t] }) ∨
    (p.encRst = false ∧ ¬ (p.eiValid = true ∧ encAccepts s.enc = true) ∧
      ¬ (p.eoReady = true ∧ s.enc.eoq ≠ []) ∧ encEdge p s = .next s) := by
  unfold encEdge
  by_cases hr : p.encRst = true
  · exact .inl ⟨hr, by simp [hr]⟩
  · have hr' : p.encRst = false := by simpa using hr
    by_cases hi : p.eiValid = true ∧ encAccepts s.enc = true
    · refine .inr (.inl ⟨hr', hi.1, hi.2, ?_⟩)
      simp only [hr', hi.1, hi.2, eiReady, decodeToken, exec_encTok]
      simp [offerEnc_of_accepts _ _ _ hi.2]
    · have hi' : (p.eiValid && eiReady p.encRst s.enc) = false := by
        simpa [eiReady, hr'] using hi
      by_cases ho : p.eoReady = true ∧ s.enc.eoq ≠ []
      · refine .inr (.inr (.inl ⟨hr', hi, ho.1, ?_⟩))
        obtain ⟨t, q, hq⟩ := List.exists_cons_of_ne_nil ho.2
        have ho' : (p.eoReady && eoValid p.encRst s.enc) = true := by simp [ho.1, eoValid, hr', hq]
        refine ⟨t, q, hq, ?_⟩
        rw [if_neg hr, if_neg (by simp [hi']), if_pos ho']
        simp [eoPop, hq]
      · refine .inr (.inr (.inr ⟨hr', hi, ho, ?_⟩))
        have ho' : (p.eoReady && eoValid p.encRst s.enc) = false := by
          simpa [eoValid, hr'] using ho
        rw [if_neg hr, if_neg (by simp [hi']), if_neg (by simp [ho'])]

/-- The decoder's part of an edge, when it answers a next state: the reset, the operation of the token transferred
on `DI`, the transfer of a copy or of `CLOSE` on `DO`, nothing (R53, R130, R135, R138, R180). -/
theorem decEdge_next {p : PortIn} {s t : State} (h : decEdge p s = .next t) :
    (p.decRst = true ∧ t = resetDec s) ∨
    (p.decRst = false ∧ p.diValid = true ∧ s.dec.dst = .atRunStart ∧
      exec (instrOfTok .di (inTokOfCode (diCode p))) s = .next t) ∨
    (p.decRst = false ∧ p.doReady = true ∧ s.dec.dst = .inRun ∧ s.dec.drem.toNat ≠ 0 ∧
      t = { s with dec := tookCopy s.dec, trDO := s.trDO ++ [OutTok.bit s.dec.dpol] }) ∨
    (p.decRst = false ∧ ¬ (p.diValid = true ∧ s.dec.dst = .atRunStart) ∧ p.doReady = true ∧
      s.dec.dst ≠ .inRun ∧ s.dec.dcl = true ∧ t = doClose s) ∨
    (p.decRst = false ∧ ¬ (p.diValid = true ∧ s.dec.dst = .atRunStart) ∧
      ¬ (p.doReady = true ∧ (s.dec.dst = .inRun ∨ s.dec.dcl = true)) ∧ t = s) := by
  unfold decEdge at h
  split at h
  · cases h
    exact .inl ⟨‹_›, rfl⟩
  · have hr : p.decRst = false := by simpa using ‹¬ p.decRst = true›
    split at h
    · rename_i hd
      simp only [diReady, hr, Bool.and_eq_true, decAccepts_iff] at hd
      exact .inr (.inl ⟨hr, hd.1, hd.2.1, h⟩)
    · rename_i hd
      have hd' : ¬ (p.diValid = true ∧ s.dec.dst = .atRunStart) := by
        simpa [diReady, hr, decAccepts] using hd
      split at h
      · rename_i ho
        simp only [doValid, hr, Bool.and_eq_true, Bool.or_eq_true, decide_eq_true_eq] at ho
        unfold doPop at h
        split at h
        · rename_i hi
          unfold doBit at h
          split at h
          · cases h
          · cases h
            exact .inr (.inr (.inl ⟨hr, ho.1, hi, ‹_›, rfl⟩))
        all_goals
          rename_i hi
          cases h
          refine .inr (.inr (.inr (.inl ⟨hr, hd', ho.1, by simp [hi], ?_, rfl⟩)))
          simpa [hi] using ho.2
      · rename_i ho
        cases h
        refine .inr (.inr (.inr (.inr ⟨hr, hd', ?_, rfl⟩)))
        simpa [doValid, hr] using ho

/-- A step that answers a next state is the encoder's part of the edge and then the decoder's. -/
theorem step_next {s t : State} (h : step s = .next t) :
    ∃ u, encEdge (nextPins s) { s with edges := s.edges.tail } = .next u ∧
      decEdge (nextPins s) u = .next t := andThen_next h

/-- A step over a known next edge. -/
theorem step_of_edges {s : State} {p : PortIn} {ps : List PortIn} (h : s.edges = p :: ps) :
    step s = andThen (encEdge p { s with edges := ps }) (decEdge p) := by
  simp [step, stepEdge, nextPins, h, clockEdge]

/-! ### Which part of the machine each unit's part of an edge may change -/

theorem encEdge_frame {p : PortIn} {s u : State} (h : encEdge p s = .next u) :
    ∃ e tr tr', u = { s with enc := e, trEI := tr, trEO := tr' } := by
  rcases encEdge_cases p s with ⟨_, h'⟩ | ⟨_, _, _, h'⟩ | ⟨_, _, _, t, q, _, h'⟩ | ⟨_, _, _, h'⟩
  all_goals
    rw [h'] at h
    cases h
    exact ⟨_, _, _, rfl⟩

theorem exec_decTok_frame {x : InTok} {s t : State} (h : exec (instrOfTok .di x) s = .next t) :
    ∃ d tr, t = { s with dec := d, trDI := tr } := by
  rcases x with b | _
  · rw [exec_decBit] at h
    rcases decBit_next h with ⟨_, _, rfl⟩ | ⟨_, _, rfl⟩ | ⟨_, rfl⟩ <;> exact ⟨_, _, rfl⟩
  · rw [exec_decFin] at h
    rcases execDend_cases s with ⟨_, _, h'⟩ | ⟨_, _, h'⟩ | ⟨_, h'⟩
    all_goals
      rw [h'] at h
      cases h
      exact ⟨_, _, rfl⟩

theorem decEdge_frame {p : PortIn} {s t : State} (h : decEdge p s = .next t) :
    ∃ d tr tr', t = { s with dec := d, trDI := tr, trDO := tr' } := by
  rcases decEdge_next h with ⟨_, rfl⟩ | ⟨_, _, _, h'⟩ | ⟨_, _, _, _, rfl⟩ | ⟨_, _, _, _, _, rfl⟩ |
    ⟨_, _, _, rfl⟩
  · exact ⟨_, _, _, rfl⟩
  · obtain ⟨d, tr, rfl⟩ := exec_decTok_frame h'
    exact ⟨_, _, _, rfl⟩
  all_goals exact ⟨_, _, _, rfl⟩

end Sys2Proof.Machine
end

