-- ==== Sys2Proof/Laws/PerInstr.lean ====
section
/-! SUPPORT. Statements about every instruction as syntax. -/

/-- Every encoding has the one length of its format: 2 bits for a token (30_encoding R80), `W` bits for a field
(R84). -/
def Sys2Proof.Laws.EncodingLength.Statement (i : Sys2Proof.Instr) : Prop :=
  ∀ W : Nat, (Sys2Proof.encode W i).length = match Sys2Proof.sourceOf i with
    | .tok _ => 2
    | .fld => W

namespace Sys2Proof.Laws.EncodingLength

theorem ebit0 : Statement .ebit0 := fun _ => rfl
theorem ebit1 : Statement .ebit1 := fun _ => rfl
theorem eend : Statement .eend := fun _ => rfl
theorem dbit0 : Statement .dbit0 := fun _ => rfl
theorem dbit1 : Statement .dbit1 := fun _ => rfl
theorem dend : Statement .dend := fun _ => rfl
theorem run (n : Nat) : Statement (.run n) := fun W => by simp [encode, sourceOf, bitsOfNat]
theorem esc : Statement .esc := fun W => by simp [encode, sourceOf, bitsOfNat]

end Sys2Proof.Laws.EncodingLength
end

