-- ==== Sys2Proof/Tests/Slice0.lean ====
section
/-! SUPPORT. The model's own tests. Expected results are the vectors of spec/95_test_vectors.md (their ids in the
comments) or the examples of the rules named. The last part shows, for each statement with hypotheses, a concrete
state that meets all of them. -/

namespace Sys2Proof.Tests

open Sys2Proof Sys2Proof.Machine

/-! ### Building small states -/

/-- The state a result leaves, if it is a next state. -/
def nextOf : Result → Option State
  | .next s => some s
  | .fault _ => none
  | .refused _ => none

def faultOf : Result → Option Fault
  | .next _ => none
  | .fault f => some f
  | .refused _ => none

def refusalOf : Result → Option Refusal
  | .next _ => none
  | .fault _ => none
  | .refused r => some r

/-- A machine of width 8 with the given units and no trace. -/
def at8 (e : Enc 8) (d : Dec 8) (ps : List PortIn := []) : State := ⟨8, e, d, [], [], [], [], ps⟩

def encAt (est : Phase) (ebit : Bool) (n : Nat) (q : List OutTok := []) : Enc 8 := ⟨est, ebit, BitVec.ofNat 8 n, q⟩

def decAt (dst : Phase) (dpol : Bool) (dsh dn drem : Nat) (derr dcl : Bool := false) : Dec 8 :=
  ⟨dst, dpol, BitVec.ofNat 8 dsh, bitCount 8 dn, BitVec.ofNat 8 drem, derr, dcl⟩

/-- The encoder's registers as numbers. -/
structure EncView where
  est : Phase
  ebit : Bool
  ecnt : Nat
  eoq : List OutTok
  deriving DecidableEq, Repr

/-- The decoder's registers as numbers. -/
structure DecView where
  dst : Phase
  dpol : Bool
  dsh : Nat
  dn : Nat
  drem : Nat
  derr : Bool
  dcl : Bool
  deriving DecidableEq, Repr

def encOf (r : Result) : Option EncView :=
  (nextOf r).map (fun t => ⟨t.enc.est, t.enc.ebit, t.enc.ecnt.toNat, t.enc.eoq⟩)

def decOf (r : Result) : Option DecView :=
  (nextOf r).map (fun t =>
    ⟨t.dec.dst, t.dec.dpol, t.dec.dsh.toNat, t.dec.dn.toNat, t.dec.drem.toNat, t.dec.derr, t.dec.dcl⟩)

/-- The encoder after an instruction, from a state of the encoder at width 8. -/
def runEnc (i : Instr) (e : Enc 8) : Option EncView := encOf (exec i (at8 e (Dec.reset 8)))

/-- The decoder after an instruction, from a state of the decoder at width 8. -/
def runDec (i : Instr) (d : Dec 8) : Option DecView := decOf (exec i (at8 (Enc.reset 8) d))

def zeros8 : List OutTok := List.replicate 8 (.bit false)
def ones8 : List OutTok := List.replicate 8 (.bit true)

/-! ### Well-formedness: an ill-formed term for each check -/

theorem test_wf_run_zero : (Instr.run 0).wf 8 = false := by decide
theorem test_wf_run_past_max : (Instr.run 256).wf 8 = false := by decide
theorem test_wf_width_zero : Instr.ebit0.wf 0 = false := by decide
theorem test_wf_run_max : (Instr.run 255).wf 8 = true := by decide

/-! ### Decoding words written out from 30_encoding R80 to R85 -/

/-- `EBIT 1` is `0b01` on `EI`, `EEND` is `0b1x` (R81). -/
theorem test_decode_encoder_tokens :
    decodeToken .ei 0b00#2 = .ebit0 ∧ decodeToken .ei 0b01#2 = .ebit1 ∧ decodeToken .ei 0b10#2 = .eend ∧
    decodeToken .ei 0b11#2 = .eend := by decide

/-- `DBIT 1` is `0b01` on `DI`, `DEND` is `0b1x` (R82). -/
theorem test_decode_decoder_tokens :
    decodeToken .di 0b00#2 = .dbit0 ∧ decodeToken .di 0b01#2 = .dbit1 ∧ decodeToken .di 0b10#2 = .dend ∧
    decodeToken .di 0b11#2 = .dend := by decide

/-- `ESC` is all zeros; the field 1 at `W = 8` is `0,0,0,0,0,0,0,1` in order of transfer (R85, R57). -/
theorem test_decode_fields :
    decodeField 0b00000000#8 = .esc ∧ decodeField 0b00000001#8 = .run 1 ∧
    decodeField 0b11111110#8 = .run 254 ∧ decodeField 0b1#1 = .run 1 := by decide

theorem test_decode_rejects_token_length :
    decode 8 (.tok .ei) [true] = .error (.tokenLength 1) := by rfl

theorem test_decode_rejects_field_length :
    decode 8 .fld [false, false, true] = .error (.fieldLength 3) := by rfl

theorem test_decode_rejects_width_zero : decode 0 .fld [] = .error .widthZero := by rfl

/-- 95_test_vectors part 2.4: the packer. -/
theorem test_field_bits :
    fieldBits 128#8 = [true, false, false, false, false, false, false, false] ∧
    fieldBits 254#8 = [true, true, true, true, true, true, true, false] ∧
    fieldBits 5#3 = [true, false, true] ∧ fieldBits 2#2 = [true, false] := by decide

/-- 95_test_vectors part 2.4: `Unpack` of `10000000 0000001` is `([128], 7)`. -/
theorem test_unpack_with_tail :
    unpackFields 8 ([true] ++ List.replicate 13 false ++ [true]) = [128] ∧
    tailCount 8 ([true] ++ List.replicate 13 false ++ [true]) = 7 := by decide

/-- 95_test_vectors E41 (`W = 2`), E56 (`W = 1`), E18 (`W = 8`). -/
theorem test_encode_fields :
    encodeFields 2 [true, true, true, true, true, false, false] = [0, 3, 0, 2, 2] ∧
    encodeFields 1 [true, true, false] = [0, 1, 0, 1, 1] ∧
    encodeFields 8 [false, false, true, true, true, false] = [2, 3, 1] := by decide

/-- 95_test_vectors D9, D10. -/
theorem test_decode_field_sequences :
    decodeFields [3, 0, 4] = List.replicate 7 false ∧ decodeFields [1, 1, 0] = [false, true] := by decide

/-! ### The encoder's operations (95_test_vectors part 2.3) -/

/-- O4. -/
theorem test_ebit0_continues :
    runEnc .ebit0 (encAt .inRun false 1) = some ⟨.inRun, false, 2, []⟩ := by decide

/-- O7: a full run that changes is not split. -/
theorem test_ebit0_changes_full_run :
    runEnc .ebit0 (encAt .inRun true 255) = some ⟨.inRun, false, 1, ones8⟩ := by decide

/-- O2: the leading field. -/
theorem test_ebit1_first :
    runEnc .ebit1 (encAt .atRunStart false 0) = some ⟨.inRun, true, 1, zeros8⟩ := by decide

/-- O6: the overflow split. -/
theorem test_ebit1_overflows :
    runEnc .ebit1 (encAt .inRun true 255) = some ⟨.inRun, true, 1, ones8 ++ zeros8⟩ := by decide

/-- O3. -/
theorem test_eend_empty :
    runEnc .eend (encAt .atRunStart false 0) = some ⟨.done, false, 0, [.close false]⟩ := by decide

/-- O9. -/
theorem test_eend_in_run :
    runEnc .eend (encAt .inRun false 7) =
      some ⟨.done, false, 7, [.bit false, .bit false, .bit false, .bit false, .bit false, .bit true,
        .bit true, .bit true, .close false]⟩ := by decide

/-! ### The decoder's operations (95_test_vectors part 2.7) -/

/-- Q3: `ESC` inside `DBIT 0`. -/
theorem test_dbit0_completes_escape :
    runDec .dbit0 (decAt .atRunStart true 0b10000000 7 0) =
      some ⟨.atRunStart, false, 0, 0, 0, false, false⟩ := by decide

/-- Q4: the old bits leave at the top. -/
theorem test_dbit0_shifts :
    runDec .dbit0 (decAt .atRunStart false 0b11111111 0 0) =
      some ⟨.atRunStart, false, 0b11111110, 1, 0, false, false⟩ := by decide

/-- Q2: `RUN 255` inside `DBIT 1`. -/
theorem test_dbit1_completes_run :
    runDec .dbit1 (decAt .atRunStart false 0b01111111 7 0) =
      some ⟨.inRun, false, 255, 0, 255, false, false⟩ := by decide

/-- Q11: at `W = 1` every wire bit is a field. -/
theorem test_dbit1_width_one :
    decOf (exec .dbit1 (State.resetAt 1)) = some ⟨.inRun, false, 1, 0, 1, false, false⟩ := by decide

/-- Q7. -/
theorem test_dend_clean :
    runDec .dend (decAt .atRunStart true 3 0 0) = some ⟨.done, true, 3, 0, 0, false, true⟩ := by decide

/-- Q8. -/
theorem test_dend_truncated :
    runDec .dend (decAt .atRunStart true 3 5 0) = some ⟨.done, true, 3, 5, 0, true, true⟩ := by decide

/-- The example of R133. -/
theorem test_run_loads :
    runDec (.run 3) (decAt .atRunStart false 3 0 0) = some ⟨.inRun, false, 3, 0, 3, false, false⟩ := by decide

/-- No operand of `RUN` at `W = 8` (R85). -/
theorem test_run_out_of_range :
    refusalOf (exec (.run 256) State.reset) = some (.fieldOutOfRange 256) := by decide

/-- The example of R134. -/
theorem test_esc_flips :
    runDec .esc (decAt .atRunStart true 0 0 0) = some ⟨.atRunStart, false, 0, 0, 0, false, false⟩ := by decide

/-! ### Output steps, reset and the placing of words -/

def edgeEO : PortIn := { PortIn.idle with eoReady := true }
def edgeDO : PortIn := { PortIn.idle with doReady := true }
def edgeRst : PortIn := { PortIn.idle with encRst := true, eiValid := true }
def edgeDecRst : PortIn := { PortIn.idle with decRst := true }

/-- The example of R110: the head of `eoq` goes out. -/
theorem test_eopop :
    (nextOf (step (at8 (encAt .done false 1 [.bit true, .close false]) (Dec.reset 8) [edgeEO]))).map
      (fun t => (t.enc.eoq, t.trEO)) = some ([.close false], [.bit true]) := by decide

/-- Q5. -/
theorem test_dobit_counts_down :
    decOf (step (at8 (Enc.reset 8) (decAt .inRun true 0 0 3) [edgeDO])) =
      some ⟨.inRun, true, 0, 0, 2, false, false⟩ := by decide

/-- Q6. -/
theorem test_dobit_last_copy :
    decOf (step (at8 (Enc.reset 8) (decAt .inRun true 0 0 1) [edgeDO])) =
      some ⟨.atRunStart, false, 0, 0, 0, false, false⟩ := by decide

/-- Q9. -/
theorem test_doclose :
    (nextOf (step (at8 (Enc.reset 8) (decAt .done true 0 5 0 true true) [edgeDO]))).map
      (fun t => (t.dec.dcl, t.trDO)) = some (false, [.close true]) := by decide

/-- X1, X3: reset wins finished a token on offer and drops the run and the queue. -/
theorem test_reset_encoder :
    encOf (step (at8 (encAt .inRun true 9 (List.replicate 5 (.bit true))) (Dec.reset 8) [edgeRst])) =
      some ⟨.atRunStart, false, 0, []⟩ := by decide

/-- X2. -/
theorem test_reset_decoder :
    decOf (step (at8 (Enc.reset 8) (decAt .done true 7 3 0 true false) [edgeDecRst])) =
      some ⟨.atRunStart, false, 0, 0, 0, false, false⟩ := by decide

/-- The table's words: 1 as a token on `EI`, 200 as a field (log 9). -/
theorem test_table_words :
    decodeTableWord 8 1 = some .ebit1 ∧ decodeTableWord 8 2 = some .eend ∧
    decodeTableWord 8 200 = some (.run 200) := by decide

/-- The very next step runs a placed token, and a placed field. -/
theorem test_placed_words_run :
    encOf (step (State.reset.withFetchWord 8 1)) = some ⟨.inRun, true, 1, zeros8⟩ ∧
    decOf (step (State.reset.withFetchWord 8 200)) = some ⟨.inRun, false, 200, 0, 200, false, false⟩ := by decide

/-- A fault of the model's own: `dn` past the field, which no run reaches (log 5). -/
theorem test_bit_count_past_field :
    faultOf (exec .dbit0 { State.resetAt 1 with dec := { Dec.reset 1 with dn := 1 } }) =
      some .bitCountPastField := by decide

/-! ### Witnesses: each statement's hypotheses are met together by a concrete state -/

theorem witness_EncoderFirstBit : State.reset.enc.est = .atRunStart ∧ State.reset.enc.eoq = [] := by decide

theorem witness_EncoderContinuesRun :
    (encAt .inRun true 254).est = .inRun ∧ (encAt .inRun true 254).eoq = [] ∧
    true = (encAt .inRun true 254).ebit ∧ (encAt .inRun true 254).ecnt.toNat < maxCount 8 := by decide

theorem witness_EncoderOverflowSplits :
    (encAt .inRun true 255).est = .inRun ∧ (encAt .inRun true 255).eoq = [] ∧
    true = (encAt .inRun true 255).ebit ∧ (encAt .inRun true 255).ecnt.toNat = maxCount 8 := by decide

theorem witness_EncoderChangesRun :
    (encAt .inRun true 255).est = .inRun ∧ (encAt .inRun true 255).eoq = [] ∧
    false ≠ (encAt .inRun true 255).ebit := by decide

theorem witness_EncoderEndOfEmptyInput :
    State.reset.enc.est = .atRunStart ∧ State.reset.enc.eoq = [] := by decide

theorem witness_EncoderEndOfRun :
    (encAt .inRun false 7).est = .inRun ∧ (encAt .inRun false 7).eoq = [] := by decide

/-- Both disjuncts, the second with the encoder not yet in `DONE`. -/
theorem witness_EncoderHoldsItsInput :
    (encAt .done false 1).est = .done ∧ (encAt .inRun false 1 [.bit true]).eoq ≠ [] := by decide

theorem witness_DecoderShiftsBit :
    (decAt .atRunStart false 0 6 0).dst = .atRunStart ∧ (decAt .atRunStart false 0 6 0).dn.toNat < 8 - 1 := by decide

theorem witness_DecoderCompletesField :
    Config.WidthOk 8 ∧ (decAt .atRunStart false 0 7 0).dst = .atRunStart ∧
    (decAt .atRunStart false 0 7 0).dn.toNat = 8 - 1 := by decide

/-- The same hypotheses at the smallest width. -/
theorem witness_DecoderFieldTakesEffect :
    Config.WidthOk (State.resetAt 1).W ∧ (State.resetAt 1).dec.dst = .atRunStart ∧
    (State.resetAt 1).dec.dn.toNat = (State.resetAt 1).W - 1 := by decide

theorem witness_RunLoadsTheCounter :
    State.reset.dec.dst = .atRunStart ∧ State.reset.dec.dn.toNat = 0 ∧ 1 ≤ 255 ∧ 255 ≤ maxCount State.reset.W := by
  decide

theorem witness_EscapeFlipsPolarity :
    State.reset.dec.dst = .atRunStart ∧ State.reset.dec.dn.toNat = 0 := by decide

theorem witness_DecoderCleanEnd :
    (decAt .atRunStart true 3 0 0).dst = .atRunStart ∧ (decAt .atRunStart true 3 0 0).dn.toNat = 0 := by decide

theorem witness_TruncatedInputIsTaken :
    (decAt .atRunStart true 3 7 0).dst = .atRunStart ∧ (decAt .atRunStart true 3 7 0).dn.toNat ≠ 0 := by decide

theorem witness_DecoderHoldsItsInput :
    (decAt .inRun true 0 0 3).dst ≠ .atRunStart ∧ (decAt .done true 0 0 0).dst ≠ .atRunStart := by decide

/-- Each clause: operands on both sides of `[1, M]`; a busy decoder and a field begun; `dn` past the field. -/
theorem witness_OutOfRuleCasesAreNamed :
    maxCount 8 < 256 ∧ (decAt .inRun true 0 0 3).dst ≠ .atRunStart ∧
    (decAt .atRunStart true 0 1 0).dn.toNat ≠ 0 ∧
    ({ Dec.reset 1 with dn := 1 } : Dec 1).dst = .atRunStart ∧
    1 - 1 < ({ Dec.reset 1 with dn := 1 } : Dec 1).dn.toNat := by decide

theorem witness_EncoderOutputStep :
    (at8 (encAt .done false 1 [.bit true]) (Dec.reset 8) [edgeEO]).edges = edgeEO :: [] ∧
    (encAt .done false 1 [.bit true]).eoq = .bit true :: [] ∧ edgeEO.encRst = false ∧ edgeEO.eoReady = true ∧
    DecIdle edgeEO := by
  unfold DecIdle
  decide

/-- The last copy, and a copy before it. -/
theorem witness_DecoderRunStep :
    (at8 (Enc.reset 8) (decAt .inRun true 0 0 1) [edgeDO]).edges = edgeDO :: [] ∧
    (decAt .inRun true 0 0 1).dst = .inRun ∧ 1 ≤ (decAt .inRun true 0 0 1).drem.toNat ∧
    (decAt .inRun true 0 0 1).drem.toNat = 1 ∧ (decAt .inRun true 0 0 255).drem.toNat ≠ 1 ∧
    edgeDO.decRst = false ∧ edgeDO.doReady = true ∧ EncIdle edgeDO := by
  unfold EncIdle
  decide

theorem witness_DecoderCloseStep :
    (at8 (Enc.reset 8) (decAt .done true 0 5 0 true true) [edgeDO]).edges = edgeDO :: [] ∧
    (decAt .done true 0 5 0 true true).dst = .done ∧ (decAt .done true 0 5 0 true true).dcl = true ∧
    edgeDO.decRst = false ∧ edgeDO.doReady = true ∧ EncIdle edgeDO ∧
    (portsOut edgeDO (at8 (Enc.reset 8) (decAt .done true 0 5 0 true false) [edgeDO])).doValid = false := by
  unfold EncIdle
  decide

/-- A reset of each unit alone, and of both; and an edge with no reset at which both units are in `DONE` with `derr`
set is that of `witness_DoneIsLeftOnlyByReset`. -/
theorem witness_ResetStep :
    edgeRst.encRst = true ∧ DecIdle edgeRst ∧ edgeDecRst.decRst = true ∧ EncIdle edgeDecRst ∧
    ({ edgeRst with decRst := true } : PortIn).encRst = true ∧
    ({ edgeRst with decRst := true } : PortIn).decRst = true := by
  unfold DecIdle EncIdle
  decide

theorem witness_DecodeOfEncode : (Instr.run 255).wf 8 = true ∧ (Instr.run 1).wf 1 = true ∧ Instr.eend.wf 1 = true := by
  decide

/-- A token, with the code in which the ignored bit is 1, and a field. -/
theorem witness_EveryWordHasAMeaning :
    Config.WidthOk 3 ∧ [true, true].length = 2 ∧ [true, false, true].length = 3 := by decide

/-- An edge at which both units take a token. -/
def edgeBoth : PortIn := { PortIn.idle with eiValid := true, diValid := true, diBit := true }

theorem witness_StepRunsTheDecodedOperation :
    (edgeEI 0b01#2).eiValid = true ∧ (portsOut (edgeEI 0b01#2) State.reset).eiReady = true ∧
    DecIdle (edgeEI 0b01#2) ∧
    (edgeDI 0b01#2).diValid = true ∧ (portsOut (edgeDI 0b01#2) State.reset).diReady = true ∧
    EncIdle (edgeDI 0b01#2) ∧
    edgeBoth.eiValid = true ∧ (portsOut edgeBoth State.reset).eiReady = true ∧
    edgeBoth.diValid = true ∧ (portsOut edgeBoth State.reset).diReady = true := by
  unfold DecIdle EncIdle
  decide

/-- A full queue whose sink stalls while the source offers, and a run whose sink stalls. -/
def waiting : State := at8 (encAt .inRun false 1 [.bit true]) (decAt .inRun true 0 0 3) [edgeBoth]

theorem witness_StepWithoutTransferWaits :
    waiting.edges = edgeBoth :: [] ∧ NoReset edgeBoth ∧
    ¬ (edgeBoth.eiValid = true ∧ (portsOut edgeBoth waiting).eiReady = true) ∧
    ¬ ((portsOut edgeBoth waiting).eoValid = true ∧ edgeBoth.eoReady = true) ∧
    ¬ (edgeBoth.diValid = true ∧ (portsOut edgeBoth waiting).diReady = true) ∧
    ¬ ((portsOut edgeBoth waiting).doValid = true ∧ edgeBoth.doReady = true) := by
  unfold NoReset
  decide

theorem waiting_regsOk : RegsOk waiting := by
  unfold RegsOk EncRegs DecRegs
  decide

theorem witness_OfferedTokensAreHeld :
    RegsOk waiting ∧ waiting.edges = edgeBoth :: [] ∧ NoReset edgeBoth ∧ NoReset PortIn.idle ∧
    step waiting = .next { waiting with edges := [] } ∧
    (portsOut edgeBoth waiting).eoValid = true ∧ edgeBoth.eoReady = false ∧
    (portsOut edgeBoth waiting).doValid = true ∧ edgeBoth.doReady = false := by
  refine ⟨waiting_regsOk, rfl, ⟨rfl, rfl⟩, ⟨rfl, rfl⟩, rfl, ?_⟩
  decide

theorem witness_DecoderInstructionsFrame :
    (∃ t, exec .dbit0 State.reset = .next t) ∧ (∃ t, exec .dbit1 State.reset = .next t) ∧
    (∃ t, exec .dend State.reset = .next t) ∧ (∃ t, exec (.run 255) State.reset = .next t) ∧
    ∃ t, exec .esc State.reset = .next t :=
  ⟨⟨_, rfl⟩, ⟨_, rfl⟩, ⟨_, rfl⟩, ⟨_, rfl⟩, ⟨_, rfl⟩⟩

/-- Encoders in different states, with different pins, beside the same decoder. -/
theorem witness_DecoderIsIndependentOfEncoder :
    SameDecPins (edgeDI 0b01#2) { edgeDI 0b01#2 with eoReady := true } ∧
    ∃ t, step (at8 (Enc.reset 8) (Dec.reset 8) [edgeDI 0b01#2]) = .next t :=
  ⟨⟨rfl, rfl, rfl, rfl, rfl⟩, ⟨_, rfl⟩⟩

theorem witness_EncoderIsIndependentOfDecoder :
    SameEncPins (edgeEI 0b01#2) { edgeEI 0b01#2 with doReady := true } ∧
    (∃ t, step (at8 (Enc.reset 8) (Dec.reset 8) [edgeEI 0b01#2]) = .next t) ∧
    ∃ t, step (at8 (Enc.reset 8) (decAt .inRun true 0 0 3) [{ edgeEI 0b01#2 with doReady := true }]) = .next t :=
  ⟨⟨rfl, rfl, rfl, rfl, rfl⟩, ⟨_, rfl⟩, ⟨_, rfl⟩⟩

/-- At `W = 2`, both units in the middle of an invocation: the encoder has taken `1` and put out the first bit of its
leading field, the decoder has taken the field `10` and put out the first of its two copies. -/
def midway : State :=
  { W := 2
    enc := { est := .inRun, ebit := true, ecnt := 1, eoq := [.bit false] }
    dec := { dst := .inRun, dpol := false, dsh := 2, dn := 0, drem := 1, derr := false, dcl := false }
    trEI := [.bit true], trEO := [.bit false]
    trDI := [.bit true, .bit false], trDO := [.bit false]
    edges := [{ edgeEO with doReady := true }] }

theorem midway_regsOk : RegsOk midway := by
  unfold RegsOk EncRegs DecRegs
  decide

theorem midway_inv : CodecInv midway :=
  ⟨midway_regsOk, ⟨[true], [0], rfl, rfl, rfl, rfl⟩, ⟨[true, false], rfl, ⟨rfl, rfl⟩, rfl, rfl⟩⟩

theorem midway_steps : ∃ t, step midway = .next t := ⟨_, rfl⟩

/-- At `W = 2`, the encoder over after an empty input, the decoder over after the single wire bit `1`. -/
def finished : State :=
  { W := 2
    enc := { est := .done, ebit := false, ecnt := 0, eoq := [] }
    dec := { dst := .done, dpol := false, dsh := 1, dn := 1, drem := 0, derr := true, dcl := false }
    trEI := [.fin], trEO := [.close false], trDI := [.bit true, .fin], trDO := [.close true]
    edges := [edgeBoth] }

theorem finished_inv : CodecInv finished := by
  refine ⟨?_, ⟨[], rfl, rfl⟩, ⟨[true], rfl, ⟨rfl, rfl⟩, rfl, rfl, rfl⟩⟩
  unfold RegsOk EncRegs DecRegs
  decide

theorem witness_InvariantAtReset : Config.WidthOk 1 := by decide

theorem witness_RegisterInvariantIsKept : RegsOk midway ∧ ∃ t, step midway = .next t :=
  ⟨midway_regsOk, midway_steps⟩

theorem witness_InvariantIsKept : CodecInv midway ∧ ∃ t, step midway = .next t := ⟨midway_inv, midway_steps⟩

theorem witness_EveryStepSucceedsUnderTheInvariant : RegsOk midway := midway_regsOk

theorem witness_WidthNeverChanges : ∃ t, step midway = .next t := midway_steps

/-- A decoder whose flag is set; one that is about to set it; and one that is being reset. -/
theorem witness_ErrorFlagIsSticky :
    (∃ t, step finished = .next t) ∧ finished.dec.derr = true ∧ edgeBoth.decRst = false ∧
    (∃ t, step (at8 (Enc.reset 8) (decAt .atRunStart false 0 3 0) [edgeDI 0b10#2]) = .next t) ∧
    (decAt .atRunStart false 0 3 0).derr = false ∧ (edgeDI 0b10#2).decRst = false ∧
    edgeDecRst.decRst = true :=
  ⟨⟨_, rfl⟩, rfl, rfl, ⟨_, rfl⟩, rfl, rfl, rfl⟩

theorem witness_DoneIsLeftOnlyByReset :
    finished.edges = edgeBoth :: [] ∧ (∃ t, step finished = .next t) ∧ finished.enc.est = .done ∧ finished.dec.dst = .done ∧
    edgeBoth.encRst = false ∧ edgeBoth.decRst = false ∧ midway.dec.dst ≠ .atRunStart :=
  ⟨rfl, ⟨_, rfl⟩, rfl, rfl, rfl, rfl, by decide⟩

theorem witness_AtMostOneTransferPerEdge :
    midway.edges = { edgeEO with doReady := true } :: [] ∧ ∃ t, step midway = .next t :=
  ⟨rfl, midway_steps⟩

theorem witness_OutputIsAFunctionOfInput :
    CodecInv midway ∧ CodecInv { midway with edges := [] } ∧ midway.W = ({ midway with edges := [] } : State).W :=
  ⟨midway_inv, midway_inv, rfl⟩

theorem witness_CloseOnceAndLast :
    CodecInv finished ∧ InTok.fin ∈ finished.trEI ∧ InTok.fin ∈ finished.trDI ∧
    CodecInv midway ∧ InTok.fin ∉ midway.trEI ∧ InTok.fin ∉ midway.trDI := by
  refine ⟨finished_inv, ?_, ?_, midway_inv, ?_, ?_⟩ <;> decide

theorem witness_RunPutsOutItsCopies :
    (decAt .inRun true 0 0 2).dst = .inRun ∧ 1 ≤ (decAt .inRun true 0 0 2).drem.toNat ∧
    (at8 (Enc.reset 8) (decAt .inRun true 0 0 2) [edgeDO, edgeDO]).edges =
      List.replicate (decAt .inRun true 0 0 2).drem.toNat { PortIn.idle with doReady := true } := by decide

/-- A field of value 2 at `W = 2`. -/
theorem witness_FieldAtATime :
    Config.WidthOk 2 ∧ 2 ≤ maxCount 2 ∧ (State.resetAt 2).dec.dst = .atRunStart ∧
    (State.resetAt 2).dec.dn.toNat = 0 ∧
    ({ State.resetAt 2 with edges := [edgeDI 0b01#2, edgeDI 0b00#2, edgeDO, edgeDO] } : State).edges =
      (bitsOfNat 2 2).map (fun b => edgeDI (tokCode false b)) ++
        List.replicate 2 { PortIn.idle with doReady := true } := by decide

/-- The input `0` at `W = 1`. -/
theorem witness_EncoderInvocation :
    Config.WidthOk 1 ∧ ∃ t : State,
      Sys2Proof.core.run 4
        { State.resetAt 1 with edges := [edgeEI 0b00#2, edgeEI 0b10#2, edgeEO, edgeEO] } = .next t ∧ EncOver t :=
  ⟨by decide, _, rfl, rfl, rfl⟩

/-- The wire bit `1` at `W = 1`. -/
theorem witness_DecoderInvocation :
    Config.WidthOk 1 ∧ ∃ t : State,
      Sys2Proof.core.run 4
        { State.resetAt 1 with edges := [edgeDI 0b01#2, edgeDO, edgeDI 0b10#2, edgeDO] } = .next t ∧ DecOver t :=
  ⟨by decide, _, rfl, rfl, rfl⟩

theorem witness_EncoderInvocationEnds : Config.WidthOk 1 := by decide

theorem witness_DecoderInvocationEnds : Config.WidthOk 8 := by decide

theorem witness_RoundTrip : Config.WidthOk 2 := by decide

theorem witness_UnpackOfPack : Config.WidthOk 2 ∧ ∀ v ∈ [0, 3, 1], v ≤ maxCount 2 := by decide

/-- The input `0` at `W = 1`, looped back: one bit, the end marker, then two transfers on `EO` and two on `DO`. -/
theorem witness_LoopbackRoundTrip :
    Config.WidthOk 1 ∧
    (∀ p ∈ [edgeEI 0b00#2, edgeEI 0b10#2, PortIn.idle, edgeDO, PortIn.idle, edgeDO], NoReset p) ∧
    ∃ t : State,
      loopRun [edgeEI 0b00#2, edgeEI 0b10#2, PortIn.idle, edgeDO, PortIn.idle, edgeDO] (State.resetAt 1) = .next t ∧
      DecOver t := by
  refine ⟨by decide, ?_, _, rfl, rfl, rfl⟩
  unfold NoReset
  decide

theorem witness_LoopbackMovesTokens : CodecInv midway ∧ NoReset PortIn.idle ∧ ∃ t, loopEdge PortIn.idle midway = .next t :=
  ⟨midway_inv, ⟨rfl, rfl⟩, ⟨_, rfl⟩⟩

theorem witness_FieldsOfOneRun : Config.WidthOk 8 ∧ 1 ≤ 510 := by decide

theorem witness_EncodedFieldsInRange : Config.WidthOk 1 := by decide

theorem witness_EncoderPolarity : CodecInv midway ∧ midway.enc.est = .inRun := ⟨midway_inv, rfl⟩

/-- Each clause: `M >= 2` at `W = 2`, and `W = 1`. -/
theorem witness_SizeOfTheOutput : Config.WidthOk 2 ∧ Config.WidthOk 1 ∧ [true, false] ≠ [] ∧ 2 ≤ maxCount 2 := by decide

end Sys2Proof.Tests
end

section
/-! The obligations of 10_state: the status outputs (R35), the reset step (R36, R180) and the flag `derr` (R31).
First what the pins show, then what each unit's part of an edge does at a reset, at an idle edge, in `DONE` and to
`derr`, then the whole step. -/

namespace Sys2Proof.Machine

/-! ### The output pins -/

@[simp] theorem portsOut_encState (p : PortIn) (s : State) : (portsOut p s).encState = phaseCode s.enc.est := rfl
@[simp] theorem portsOut_decState (p : PortIn) (s : State) : (portsOut p s).decState = phaseCode s.dec.dst := rfl
@[simp] theorem portsOut_decErr (p : PortIn) (s : State) : (portsOut p s).decErr = s.dec.derr := rfl

theorem portsOut_diReady_iff (p : PortIn) (s : State) :
    (portsOut p s).diReady = true ↔ s.dec.dst = .atRunStart ∧ p.decRst = false := by
  simp [portsOut, diReady, decAccepts_iff]

/-- A unit's reset holds its ready and valid outputs at 0 (R100, R110). -/
theorem portsOut_enc_of_encRst {p : PortIn} (h : p.encRst = true) (s : State) :
    (portsOut p s).eiReady = false ∧ (portsOut p s).eoValid = false := by
  simp [portsOut, eiReady, eoValid, h]

/-- A unit's reset holds its ready and valid outputs at 0 (R130, R135, R138). -/
theorem portsOut_dec_of_decRst {p : PortIn} (h : p.decRst = true) (s : State) :
    (portsOut p s).diReady = false ∧ (portsOut p s).doValid = false := by
  simp [portsOut, diReady, doValid, h]

/-! ### A unit's part of an edge: reset and idle -/

theorem encEdge_of_encRst {p : PortIn} (h : p.encRst = true) (s : State) :
    encEdge p s = .next (resetEnc s) := by simp [encEdge, h]

theorem decEdge_of_decRst {p : PortIn} (h : p.decRst = true) (s : State) :
    decEdge p s = .next (resetDec s) := by simp [decEdge, h]

theorem encEdge_of_encIdle {p : PortIn} (h : EncIdle p) (s : State) : encEdge p s = .next s := by
  obtain ⟨hr, hv, ho⟩ := h
  simp [encEdge, hr, hv, ho]

theorem decEdge_of_decIdle {p : PortIn} (h : DecIdle p) (s : State) : decEdge p s = .next s := by
  obtain ⟨hr, hv, ho⟩ := h
  simp [decEdge, hr, hv, ho]

/-! ### A unit's part of an edge: `DONE` and `derr` -/

/-- Without its reset the encoder stays in `DONE` (R109). -/
theorem encEdge_keeps_done {p : PortIn} {s u : State} (h : encEdge p s = .next u)
    (hr : p.encRst = false) (hd : s.enc.est = .done) : u.enc.est = .done := by
  rcases encEdge_cases p s with ⟨hr', _⟩ | ⟨_, _, ha, _⟩ | ⟨_, _, _, _, _, _, h'⟩ | ⟨_, _, _, h'⟩
  · simp [hr] at hr'
  · exact absurd hd ((encAccepts_iff _).1 ha).1
  · cases h'.symm.trans h
    exact hd
  · cases h'.symm.trans h
    exact hd

theorem decEdge_enc_est {p : PortIn} {s t : State} (h : decEdge p s = .next t) :
    t.enc.est = s.enc.est := by
  obtain ⟨_, _, _, rfl⟩ := decEdge_frame h
  rfl

/-- Without its reset the decoder stays in `DONE` (R139). -/
theorem decEdge_keeps_done {p : PortIn} {s t : State} (h : decEdge p s = .next t)
    (hr : p.decRst = false) (hd : s.dec.dst = .done) : t.dec.dst = .done := by
  rcases decEdge_next h with ⟨hr', _⟩ | ⟨_, _, hs, _⟩ | ⟨_, _, hs, _⟩ | ⟨_, _, _, _, _, rfl⟩ | ⟨_, _, _, rfl⟩
  · simp [hr] at hr'
  · simp [hd] at hs
  · simp [hd] at hs
  · exact hd
  · exact hd

@[simp] theorem completeField_derr {W : Nat} (b : Bool) (d : Dec W) : (completeField b d).derr = d.derr := by
  unfold completeField
  rcases fieldOp_cases (shiftIn d.dsh b) (unpacked b d) with ⟨_, h⟩ | ⟨_, h⟩ <;> simp [h]

@[simp] theorem tookCopy_derr {W : Nat} (d : Dec W) : (tookCopy d).derr = d.derr := by
  unfold tookCopy
  split <;> rfl

theorem decBit_derr {b : Bool} {s t : State} (h : decBit b s = .next t) : t.dec.derr = s.dec.derr := by
  rcases decBit_next h with ⟨_, _, rfl⟩ | ⟨_, _, rfl⟩ | ⟨_, rfl⟩
  · exact shiftBit_derr ..
  · exact completeField_derr ..
  · rfl

/-- The end marker that a waiting decoder takes sets `derr` exactly when a field is incomplete (R136, R137). -/
theorem execDend_derr_iff {s t : State} (h : execDend s = .next t) (hs : s.dec.dst = .atRunStart) :
    t.dec.derr = true ↔ s.dec.derr = true ∨ s.dec.dn.toNat ≠ 0 := by
  rcases execDend_cases s with ⟨_, hn, h'⟩ | ⟨_, hn, h'⟩ | ⟨hs', _⟩
  · cases h'.symm.trans h
    simp [hn]
  · cases h'.symm.trans h
    simp [hn]
  · exact absurd hs hs'

/-- Raising TruncatedInput at an edge: the end marker is transferred on `DI` inside a field (R137). -/
def TakesTruncation (p : PortIn) (s : State) : Prop :=
  p.diValid = true ∧ s.dec.dst = .atRunStart ∧ inTokOfCode (diCode p) = .fin ∧ s.dec.dn.toNat ≠ 0

theorem not_takesTruncation_of_not_taken {p : PortIn} {s : State}
    (h : ¬ (p.diValid = true ∧ s.dec.dst = .atRunStart)) : ¬ TakesTruncation p s :=
  fun ⟨hv, hs, _⟩ => h ⟨hv, hs⟩

/-- Without a reset the decoder's part of an edge sets `derr` by TruncatedInput alone, and never clears it (R31). -/
theorem decEdge_derr_iff {p : PortIn} {s t : State} (h : decEdge p s = .next t) (hr : p.decRst = false) :
    t.dec.derr = true ↔ s.dec.derr = true ∨ TakesTruncation p s := by
  rcases decEdge_next h with ⟨hr', _⟩ | ⟨_, hv, hs, hx⟩ | ⟨_, _, hs, _, rfl⟩ | ⟨_, hi, _, _, _, rfl⟩ |
    ⟨_, hi, _, rfl⟩
  · simp [hr] at hr'
  · cases hc : inTokOfCode (diCode p) with
    | bit b =>
      rw [hc, exec_decBit] at hx
      simp [TakesTruncation, hc, decBit_derr hx]
    | fin =>
      rw [hc, exec_decFin] at hx
      simp [TakesTruncation, hc, execDend_derr_iff hx hs, hv, hs]
  · simp [TakesTruncation, hs]
  · simp [not_takesTruncation_of_not_taken hi]
  · simp [not_takesTruncation_of_not_taken hi]

/-! ### The whole step -/

/-- A step over the edge `p` as its two parts, the encoder's leaving the decoder as it was. -/
theorem step_parts {s t : State} {p : PortIn} {ps : List PortIn} (he : s.edges = p :: ps)
    (h : step s = .next t) :
    ∃ e tr tr', encEdge p { s with edges := ps } =
        .next { s with enc := e, trEI := tr, trEO := tr', edges := ps } ∧
      decEdge p { s with enc := e, trEI := tr, trEO := tr', edges := ps } = .next t := by
  rw [step_of_edges he] at h
  obtain ⟨u, hu, ht⟩ := andThen_next h
  obtain ⟨e, tr, tr', rfl⟩ := encEdge_frame hu
  exact ⟨e, tr, tr', hu, ht⟩

theorem step_keeps_enc_done {s t : State} {p : PortIn} {ps : List PortIn} (he : s.edges = p :: ps)
    (h : step s = .next t) (hr : p.encRst = false) (hd : s.enc.est = .done) : t.enc.est = .done := by
  obtain ⟨_, _, _, hu, ht⟩ := step_parts he h
  rw [decEdge_enc_est ht]
  exact encEdge_keeps_done hu hr hd

theorem step_keeps_dec_done {s t : State} {p : PortIn} {ps : List PortIn} (he : s.edges = p :: ps)
    (h : step s = .next t) (hr : p.decRst = false) (hd : s.dec.dst = .done) : t.dec.dst = .done := by
  obtain ⟨_, _, _, _, ht⟩ := step_parts he h
  exact decEdge_keeps_done ht hr hd

/-- Without a reset of the decoder a step sets `derr` by TruncatedInput alone, and never clears it (R31). -/
theorem step_derr_iff {s t : State} {p : PortIn} {ps : List PortIn} (he : s.edges = p :: ps)
    (h : step s = .next t) (hr : p.decRst = false) :
    t.dec.derr = true ↔ s.dec.derr = true ∨ TakesTruncation p s := by
  obtain ⟨_, _, _, _, ht⟩ := step_parts he h
  have hiff := decEdge_derr_iff ht hr
  exact hiff

theorem step_derr_of_decRst {s t : State} {p : PortIn} {ps : List PortIn} (he : s.edges = p :: ps)
    (h : step s = .next t) (hr : p.decRst = true) : t.dec.derr = false := by
  obtain ⟨_, _, _, _, ht⟩ := step_parts he h
  cases (decEdge_of_decRst hr _).symm.trans ht
  rfl

theorem step_of_encRst_of_decIdle {s : State} {p : PortIn} {ps : List PortIn} (he : s.edges = p :: ps)
    (hr : p.encRst = true) (hd : DecIdle p) : step s = .next (resetEnc { s with edges := ps }) := by
  rw [step_of_edges he, encEdge_of_encRst hr]
  exact decEdge_of_decIdle hd _

theorem step_of_decRst_of_encIdle {s : State} {p : PortIn} {ps : List PortIn} (he : s.edges = p :: ps)
    (hr : p.decRst = true) (hi : EncIdle p) : step s = .next (resetDec { s with edges := ps }) := by
  rw [step_of_edges he, encEdge_of_encIdle hi]
  exact decEdge_of_decRst hr _

theorem step_of_both_rst {s : State} {p : PortIn} {ps : List PortIn} (he : s.edges = p :: ps)
    (hr : p.encRst = true) (hd : p.decRst = true) :
    step s = .next (resetDec (resetEnc { s with edges := ps })) := by
  rw [step_of_edges he, encEdge_of_encRst hr]
  exact decEdge_of_decRst hd _

/-! ### Which token selects `DEND` -/

/-- On `DI` the end marker alone selects `DEND` (R82). -/
theorem decodeToken_di_eq_dend_iff (c : TokCode) : decodeToken .di c = .dend ↔ inTokOfCode c = .fin := by
  unfold decodeToken
  rcases inTokOfCode c with (_ | _) | _ <;> simp [instrOfTok]

/-- `TakesTruncation` in the words of the pins and the instruction: `DEND` transferred with `dn != 0`. -/
theorem takesTruncation_iff {p : PortIn} (s : State) (hr : p.decRst = false) :
    TakesTruncation p s ↔ p.diValid = true ∧ (portsOut p s).diReady = true ∧
      decodeToken .di (tokCode p.diEnd p.diBit) = .dend ∧ s.dec.dn.toNat ≠ 0 := by
  simp [TakesTruncation, portsOut_diReady_iff, decodeToken_di_eq_dend_iff, diCode, hr]

/-! ### The obligations -/

/-- Settles O41: `step_derr_iff` says which edges set the flag; a reset of the decoder clears it. -/
theorem errorFlagIsSticky : Obligations.ErrorFlagIsSticky := by
  intro s t p ps he h
  refine ⟨step_derr_of_decRst he h, fun hr => ⟨fun hs => ?_, fun hs => ?_⟩, portsOut_decErr p s⟩
  · exact (step_derr_iff he h hr).2 (.inl hs)
  · rw [step_derr_iff he h hr, ← takesTruncation_iff s hr]
    simp [hs]

/-- Settles O20: the pins are the codes of R87, state by state. -/
theorem statusOutputsFollowTheState : Obligations.StatusOutputsFollowTheState := by
  intro s p
  rw [portsOut_encState, portsOut_decState]
  refine ⟨?_, ?_, portsOut_decErr p s⟩
  · cases s.enc.est <;> rfl
  · cases s.dec.dst <;> rfl

/-- Settles O22: the three resets by `step_of_…`, and no other edge leaves `DONE` or clears `derr`. -/
theorem resetStep : Obligations.ResetStep := by
  intro s p ps he
  refine ⟨fun hr => ?_, fun hr => ?_, fun hr hd => ?_, fun t h => ⟨?_, fun hr => ⟨?_, fun hs => ?_⟩⟩⟩
  · obtain ⟨hi, ho⟩ := portsOut_enc_of_encRst hr s
    exact ⟨hi, ho, step_of_encRst_of_decIdle he hr⟩
  · obtain ⟨hi, ho⟩ := portsOut_dec_of_decRst hr s
    exact ⟨hi, ho, step_of_decRst_of_encIdle he hr⟩
  · exact ⟨_, step_of_both_rst he hr hd, rfl, fun q => ⟨rfl, rfl, rfl⟩⟩
  · exact step_keeps_enc_done he h
  · exact step_keeps_dec_done he h hr
  · exact (step_derr_iff he h hr).2 (.inl hs)

end Sys2Proof.Machine
end

section
/-! PROOFS of the encoding family (30_encoding section 1): reading a token code built by `tokCode` gives its two
fields and the token they stand for. -/

namespace Sys2Proof

@[simp] theorem codeEnd_tokCode (endBit bit : Bool) : codeEnd (tokCode endBit bit) = endBit :=
  BitVec.getLsbD_append.trans (by simp)

@[simp] theorem codeBit_tokCode (endBit bit : Bool) : codeBit (tokCode endBit bit) = bit :=
  BitVec.getLsbD_append.trans (by simp)

@[simp] theorem inTokOfCode_tokCode (endBit bit : Bool) :
    inTokOfCode (tokCode endBit bit) = if endBit then .fin else .bit bit := by
  rw [inTokOfCode, codeEnd_tokCode, codeBit_tokCode]

@[simp] theorem outTokOfCode_tokCode (endBit bit : Bool) :
    outTokOfCode (tokCode endBit bit) = if endBit then .close bit else .bit bit := by
  rw [outTokOfCode, codeEnd_tokCode, codeBit_tokCode]

/-- On an output stream the token comes back from its code: there, unlike on an input stream, no bit of the code is
ignored (R80). -/
@[simp] theorem outTokOfCode_codeOfOutTok (t : OutTok) : outTokOfCode (codeOfOutTok t) = t := by
  cases t with
  | bit b => exact outTokOfCode_tokCode false b
  | close e => exact outTokOfCode_tokCode true e

/-- Settles O23: the fields and tokens by the lemmas of `tokCode`, the four code words by evaluation. -/
theorem tokenCodes : Obligations.TokenCodes := by
  refine ⟨fun endBit bit => ⟨?_, ?_, ?_, ?_⟩, rfl, rfl, rfl, rfl, outTokOfCode_codeOfOutTok⟩
  · exact codeEnd_tokCode endBit bit
  · exact codeBit_tokCode endBit bit
  · exact inTokOfCode_tokCode endBit bit
  · exact outTokOfCode_tokCode endBit bit

end Sys2Proof
end

section
/-! The obligations of 40_encoder: the packer's tokens (R101), the input operations of a ready encoder (R103 to R108),
the output step (R110) and `DONE` (R109, with R139 for the decoder). First the fields as tokens and the units' equations,
then what an accepted token does to the machine, then the statements. -/

namespace Sys2Proof.Machine

/-! ### The tokens of a field -/

section Fields

variable {W : Nat}

theorem fieldToks_eq_outBits (v : CountField W) : fieldToks v = outBits (bitsOfNat W v.toNat) := by
  rw [fieldToks, fieldBits_eq, outBits]

/-- Token `j` of a field is its bit `W - 1 - j` (R57, R101). -/
theorem fieldToks_getElem? (v : CountField W) {j : Nat} (h : j < W) :
    (fieldToks v)[j]? = some (OutTok.bit (v.getLsbD (W - 1 - j))) := by
  simp [fieldToks, fieldBits, h]

/-- A field whose bits are all `b` is `W` equal tokens. -/
theorem fieldToks_eq_replicate {v : CountField W} {b : Bool} (h : ∀ i, i < W → v.getLsbD i = b) :
    fieldToks v = List.replicate W (OutTok.bit b) := by
  refine List.eq_replicate_iff.2 ⟨fieldToks_length v, fun t ht => ?_⟩
  obtain ⟨j, hj⟩ := List.getElem?_of_mem ht
  have hjW : j < W := fieldToks_length v ▸ (List.getElem?_eq_some_iff.1 hj).1
  rw [fieldToks_getElem? v hjW, h _ (by omega)] at hj
  exact (Option.some.inj hj).symm

theorem fieldToks_zero : fieldToks 0#W = List.replicate W (OutTok.bit false) :=
  fieldToks_eq_replicate fun _ _ => BitVec.getLsbD_zero

/-- The field `M` is all ones (R5). -/
theorem fieldToks_fieldMax : fieldToks (fieldMax W) = List.replicate W (OutTok.bit true) := by
  refine fieldToks_eq_replicate fun i hi => ?_
  rw [BitVec.getLsbD, fieldMax_toNat, maxCount, Nat.testBit_two_pow_sub_one]
  exact decide_eq_true hi

end Fields

/-! ### The unit's operations with an empty queue -/

section Unit

variable {W : Nat} {e : Enc W} {b : Bool}

theorem encBit_of_atRunStart (h : e.est = .atRunStart) : encBit b e = encFirst b e := by
  simp [encBit, h]

theorem encBit_of_continues (h : e.est = .inRun) (hb : b = e.ebit) (hn : e.ecnt.toNat < maxCount W) :
    encBit b e = encContinue e := by
  simp [encBit, h, hb, hn]

theorem encBit_of_overflows (h : e.est = .inRun) (hb : b = e.ebit) (hn : e.ecnt.toNat = maxCount W) :
    encBit b e = encOverflow e := by
  simp [encBit, h, hb, hn]

theorem encBit_of_changes (h : e.est = .inRun) (hb : b ≠ e.ebit) : encBit b e = encChange b e := by
  simp [encBit, h, hb]

theorem encEnd_of_atRunStart (h : e.est = .atRunStart) (hq : e.eoq = []) :
    encEnd e = { e with est := .done, eoq := [.close false] } := by
  simp [encEnd, emitClose, h, hq]

theorem encEnd_of_inRun (h : e.est = .inRun) (hq : e.eoq = []) :
    encEnd e = { e with
      est := .done, eoq := outBits (bitsOfNat W e.ecnt.toNat) ++ [.close false] } := by
  simp [encEnd, emitClose, emitField, h, hq, fieldToks_eq_outBits]

theorem encFirst_of_empty (hq : e.eoq = []) :
    encFirst b e = { est := .inRun, ebit := b, ecnt := 1#W,
                     eoq := if b then List.replicate W (OutTok.bit false) else [] } := by
  cases b with
  | false => simp [encFirst, hq]
  | true => simp [encFirst, hq, fieldToks_zero]

/-- Below `M` the count does not wrap (R104). -/
theorem ecnt_add_one_toNat {v : CountField W} (h : v.toNat < maxCount W) :
    (v + 1#W).toNat = v.toNat + 1 := by
  have hlt : v.toNat + 1 < 2 ^ W := lt_two_pow_of_le_maxCount h
  simp [BitVec.toNat_add, Nat.mod_eq_of_lt hlt]

theorem encContinue_eq (e : Enc W) : encContinue e = { e with ecnt := e.ecnt + 1#W } := by
  rw [encContinue, BitVec.ofNat_add, BitVec.ofNat_toNat, BitVec.setWidth_eq]

theorem encOverflow_of_empty (hq : e.eoq = []) :
    encOverflow e = { e with
      ecnt := 1#W
      eoq := List.replicate W (OutTok.bit true) ++ List.replicate W (OutTok.bit false) } := by
  simp [encOverflow, emitField, hq, fieldToks_zero, fieldToks_fieldMax]

theorem encChange_of_empty (hq : e.eoq = []) :
    encChange b e = { e with ebit := b, ecnt := 1#W, eoq := outBits (bitsOfNat W e.ecnt.toNat) } := by
  simp [encChange, emitField, hq, fieldToks_eq_outBits]

end Unit

/-! ### A token on `EI` taken by a ready encoder -/

/-- The codes `0b0b` on `EI` select `EBIT b` (R81). -/
theorem decodeToken_ei_bit (b : Bool) : decodeToken .ei (tokCode false b) = ebit b := by
  rw [decodeToken, inTokOfCode_tokCode]
  cases b <;> rfl

/-- Both end codes on `EI` select `EEND` (R81). -/
theorem decodeToken_ei_end (x : Bool) : decodeToken .ei (tokCode true x) = .eend := by
  rw [decodeToken, inTokOfCode_tokCode]
  rfl

theorem instrOfTok_ei_bit (b : Bool) : instrOfTok .ei (.bit b) = ebit b := by cases b <;> rfl

section Taken

variable {s : State}

theorem exec_ebit_of_accepts (b : Bool) (hd : s.enc.est ≠ .done) (hq : s.enc.eoq = []) :
    exec (ebit b) s = .next { s with enc := encBit b s.enc, trEI := s.trEI ++ [.bit b] } := by
  rw [← instrOfTok_ei_bit, exec_encTok, offerEnc_of_accepts _ _ _ ((encAccepts_iff _).2 ⟨hd, hq⟩), encTokOp]

theorem exec_eend_of_accepts (hd : s.enc.est ≠ .done) (hq : s.enc.eoq = []) :
    exec .eend s = .next { s with enc := encEnd s.enc, trEI := s.trEI ++ [.fin] } := by
  rw [← offerEnc_of_accepts _ _ _ ((encAccepts_iff _).2 ⟨hd, hq⟩)]
  exact exec_encTok .fin s

end Taken

/-! ### The output step -/

theorem portsOut_eoValid (p : PortIn) (s : State) :
    (portsOut p s).eoValid = (decide (s.enc.eoq ≠ []) && !p.encRst) := by
  cases hq : s.enc.eoq <;> simp [portsOut, eoValid, hq]

theorem portsOut_eiReady_of_eoq {p : PortIn} {s : State} (h : s.enc.eoq ≠ []) :
    (portsOut p s).eiReady = false := by
  simp [portsOut, eiReady, encAccepts, h]

theorem portsOut_eiReady_of_done {p : PortIn} {s : State} (h : s.enc.est = .done) :
    (portsOut p s).eiReady = false := by
  simp [portsOut, eiReady, encAccepts, h]

/-- With nothing on offer the pins of `EO` carry `0b00` (R110). -/
theorem portsOut_eo_of_not_valid {p : PortIn} {s : State} (h : (portsOut p s).eoValid = false) :
    (portsOut p s).eoEnd = false ∧ (portsOut p s).eoBit = false := by
  have hv : eoValid p.encRst s.enc = false := h
  simp [portsOut, eoCode, hv, codeEnd, codeBit]

/-- The two pins of a code, put together, are the code. -/
theorem tokCode_codeOfOutTok (t : OutTok) :
    tokCode (codeEnd (codeOfOutTok t)) (codeBit (codeOfOutTok t)) = codeOfOutTok t := by
  cases t <;> simp [codeOfOutTok]

/-- The pins of `EO` carry the code of the head of `eoq` (R110). -/
theorem portsOut_eo_of_head {p : PortIn} {s : State} {t : OutTok} {q : List OutTok}
    (hq : s.enc.eoq = t :: q) (hr : p.encRst = false) :
    tokCode (portsOut p s).eoEnd (portsOut p s).eoBit = codeOfOutTok t := by
  have hc : eoCode p.encRst s.enc = codeOfOutTok t := by simp [eoCode, eoValid, hq, hr]
  simp only [portsOut, hc, tokCode_codeOfOutTok]

/-- A willing sink takes the head of `eoq`, whatever the source of `EI` offers (R100, R110). -/
theorem encEdge_of_eoq {p : PortIn} {s : State} {t : OutTok} {q : List OutTok}
    (hq : s.enc.eoq = t :: q) (hr : p.encRst = false) (ho : p.eoReady = true) :
    encEdge p s = .next { s with enc := { s.enc with eoq := q }, trEO := s.trEO ++ [t] } := by
  rcases encEdge_cases p s with ⟨hr', _⟩ | ⟨_, _, ha, _⟩ | ⟨_, _, _, t', q', hq', h⟩ | ⟨_, _, hn, _⟩
  · simp [hr] at hr'
  · simp [encAccepts_iff, hq] at ha
  · obtain ⟨rfl, rfl⟩ := List.cons.inj (hq.symm.trans hq')
    exact h
  · simp [ho, hq] at hn

/-! ### `DONE` -/

/-- Without its reset the encoder takes no token in `DONE` (R109). -/
theorem encEdge_keeps_trEI_of_done {p : PortIn} {s u : State} (h : encEdge p s = .next u)
    (hr : p.encRst = false) (hd : s.enc.est = .done) : u.trEI = s.trEI := by
  rcases encEdge_cases p s with ⟨hr', _⟩ | ⟨_, _, ha, _⟩ | ⟨_, _, _, _, _, _, h'⟩ | ⟨_, _, _, h'⟩
  · simp [hr] at hr'
  · exact absurd hd ((encAccepts_iff _).1 ha).1
  · cases h'.symm.trans h
    rfl
  · cases h'.symm.trans h
    rfl

theorem decEdge_trEI {p : PortIn} {s t : State} (h : decEdge p s = .next t) : t.trEI = s.trEI := by
  obtain ⟨_, _, _, rfl⟩ := decEdge_frame h
  rfl

/-- Without its reset the decoder takes no token outside `AT_RUN_START` (R139). -/
theorem decEdge_keeps_trDI {p : PortIn} {s t : State} (h : decEdge p s = .next t)
    (hr : p.decRst = false) (hs : s.dec.dst ≠ .atRunStart) : t.trDI = s.trDI := by
  rcases decEdge_next h with ⟨hr', _⟩ | ⟨_, _, hs', _⟩ | ⟨_, _, _, _, rfl⟩ | ⟨_, _, _, _, _, rfl⟩ |
    ⟨_, _, _, rfl⟩
  · simp [hr] at hr'
  · exact absurd hs' hs
  all_goals rfl

theorem step_keeps_trEI_of_done {s t : State} {p : PortIn} {ps : List PortIn} (he : s.edges = p :: ps)
    (h : step s = .next t) (hr : p.encRst = false) (hd : s.enc.est = .done) : t.trEI = s.trEI := by
  obtain ⟨_, _, _, hu, ht⟩ := step_parts he h
  rw [decEdge_trEI ht]
  exact (encEdge_keeps_trEI_of_done hu hr hd :)

theorem step_keeps_trDI {s t : State} {p : PortIn} {ps : List PortIn} (he : s.edges = p :: ps)
    (h : step s = .next t) (hr : p.decRst = false) (hs : s.dec.dst ≠ .atRunStart) : t.trDI = s.trDI := by
  obtain ⟨_, _, _, _, ht⟩ := step_parts he h
  exact (decEdge_keeps_trDI ht hr hs :)

theorem portsOut_diReady_of_ne {p : PortIn} {s : State} (h : s.dec.dst ≠ .atRunStart) :
    (portsOut p s).diReady = false :=
  Bool.eq_false_iff.2 fun hr => h ((portsOut_diReady_iff p s).1 hr).1

/-! ### The obligations -/

/-- Settles O42: no case of `encEdge_cases` and `decEdge_next` but the reset leaves `DONE` or extends a trace there. -/
theorem doneIsLeftOnlyByReset : Obligations.DoneIsLeftOnlyByReset := by
  intro s t p ps he h
  refine ⟨fun hd => ⟨portsOut_eiReady_of_done hd, fun hr => ⟨?_, ?_⟩⟩, fun hs => ⟨portsOut_diReady_of_ne hs, ?_⟩, ?_⟩
  · exact step_keeps_enc_done he h hr hd
  · exact step_keeps_trEI_of_done he h hr hd
  · exact fun hr => step_keeps_trDI he h hr hs
  · exact fun hd hr => step_keeps_dec_done he h hr hd

/-- Settles O1: the first bit is taken and runs `encFirst`. -/
theorem encoderFirstBit : Obligations.EncoderFirstBit := by
  intro s b hs hq
  refine ⟨decodeToken_ei_bit b, ?_⟩
  rw [exec_ebit_of_accepts b (by simp [hs]) hq, encBit_of_atRunStart hs, encFirst_of_empty hq]

/-- Settles O2: the bit is taken and runs `encContinue`, below the count at which it would wrap. -/
theorem encoderContinuesRun : Obligations.EncoderContinuesRun := by
  intro s b hs hq hb hn
  refine ⟨decodeToken_ei_bit b, ?_, ecnt_add_one_toNat hn⟩
  rw [exec_ebit_of_accepts b (by simp [hs]) hq, encBit_of_continues hs hb hn, encContinue_eq]

/-- Settles O3: the bit is taken and runs `encOverflow`, whose two fields are all ones and all zeros. -/
theorem encoderOverflowSplits : Obligations.EncoderOverflowSplits := by
  intro s b hs hq hb hn
  refine ⟨decodeToken_ei_bit b, ?_⟩
  rw [exec_ebit_of_accepts b (by simp [hs]) hq, encBit_of_overflows hs hb hn, encOverflow_of_empty hq]

/-- Settles O4: the bit is taken and runs `encChange`. -/
theorem encoderChangesRun : Obligations.EncoderChangesRun := by
  intro s b hs hq hb
  refine ⟨decodeToken_ei_bit b, ?_⟩
  rw [exec_ebit_of_accepts b (by simp [hs]) hq, encBit_of_changes hs hb, encChange_of_empty hq]

/-- Settles O5: the end marker is taken and queues the closing token alone. -/
theorem encoderEndOfEmptyInput : Obligations.EncoderEndOfEmptyInput := by
  intro s x hs hq
  refine ⟨decodeToken_ei_end x, ?_⟩
  rw [exec_eend_of_accepts (by simp [hs]) hq, encEnd_of_atRunStart hs hq]

/-- Settles O6: the end marker is taken and queues the field of the run and the closing token. -/
theorem encoderEndOfRun : Obligations.EncoderEndOfRun := by
  intro s x hs hq
  refine ⟨decodeToken_ei_end x, ?_⟩
  rw [exec_eend_of_accepts (by simp [hs]) hq, encEnd_of_inRun hs hq]

/-- Settles O17: what the pins of `EO` show, and the step as `encEdge_of_eoq` beside an idle decoder. -/
theorem encoderOutputStep : Obligations.EncoderOutputStep := by
  intro s p ps he
  refine ⟨portsOut_eoValid p s, portsOut_eo_of_not_valid, fun t q hq hr => ⟨?_, ?_, fun ho hd => ?_⟩⟩
  · exact portsOut_eo_of_head hq hr
  · exact portsOut_eiReady_of_eoq (by simp [hq])
  · rw [step_of_edges he, encEdge_of_eoq (s := { s with edges := ps }) hq hr ho]
    exact decEdge_of_decIdle hd _

/-- Settles O24: the tokens appended are `fieldToks v`. -/
theorem emitFieldAppendsTheBits : Obligations.EmitFieldAppendsTheBits :=
  fun _ v _ => ⟨fieldToks v, rfl, fieldToks_length v, fun _ => fieldToks_getElem? v⟩

end Sys2Proof.Machine
end

section
/-! The obligations of 41_decoder: a wire bit taken by a waiting decoder (R131, R132), the field operations (R133,
R134), the end marker (R136, R137) and the output steps (R135, R138). First the shift and what each operation does to
a machine in the rule's condition, then the pins of `DO` and the transfer on it, then the statements. -/

namespace Sys2Proof.Machine

/-! ### The unpacker's shift and the copy counter -/

section Registers

variable {W : Nat}

/-- The shift of R131 is the library's: one place up, the new bit at bit 0. -/
theorem shiftIn_eq_shiftConcat (v : CountField W) (b : Bool) : shiftIn v b = v.shiftConcat b := by
  apply BitVec.eq_of_toNat_eq
  rw [shiftIn_toNat, BitVec.toNat_shiftConcat, Nat.shiftLeft_eq]
  congr 2
  omega

theorem shiftIn_getLsbD (v : CountField W) (b : Bool) {i : Nat} (h : i < W) :
    (shiftIn v b).getLsbD i = if i = 0 then b else v.getLsbD (i - 1) := by
  rw [shiftIn_eq_shiftConcat, BitVec.getLsbD_shiftConcat, decide_eq_true h, Bool.true_and]

/-- While a copy is left `drem` counts down without wrapping (R135). -/
theorem drem_pred_eq {v : CountField W} (h : 1 ≤ v.toNat) : BitVec.ofNat W (v.toNat - 1) = v - 1#W := by
  have hW : 1 < 2 ^ W := Nat.lt_of_le_of_lt h v.isLt
  rw [← BitVec.ofNat_sub_ofNat_of_le v.toNat 1 hW h, BitVec.ofNat_toNat, BitVec.setWidth_eq]

theorem tookCopy_of_copies {d : Dec W} (h : 1 ≤ d.drem.toNat) :
    tookCopy d =
      if d.drem.toNat = 1 then { d with drem := 0, dpol := !d.dpol, dst := .atRunStart }
      else { d with drem := d.drem - 1#W } := by
  rw [tookCopy, drem_pred_eq h]

end Registers

/-! ### A token on `DI` taken by a waiting decoder -/

/-- The codes `0b0b` on `DI` select `DBIT b` (R82). -/
theorem decodeToken_di_bit (b : Bool) : decodeToken .di (tokCode false b) = dbit b := by
  rw [decodeToken, inTokOfCode_tokCode]
  cases b <;> rfl

/-- Both end codes on `DI` select `DEND` (R82). -/
theorem decodeToken_di_end (x : Bool) : decodeToken .di (tokCode true x) = .dend :=
  (decodeToken_di_eq_dend_iff _).2 (inTokOfCode_tokCode true x)

theorem exec_dbit (b : Bool) (s : State) : exec (dbit b) s = decBit b s := by cases b <;> rfl

section Taken

variable {s : State}

theorem exec_dbit_of_incomplete (b : Bool) (hs : s.dec.dst = .atRunStart) (hn : s.dec.dn.toNat < s.W - 1) :
    exec (dbit b) s = .next (tookDI (.bit b) s (shiftBit b s.dec)) := by
  rw [exec_dbit, decBit, if_pos ((decAccepts_iff _).2 hs), if_pos hn]

theorem exec_dbit_of_complete (b : Bool) (hs : s.dec.dst = .atRunStart) (hn : s.dec.dn.toNat = s.W - 1) :
    exec (dbit b) s = .next (tookDI (.bit b) s (completeField b s.dec)) := by
  rw [exec_dbit, decBit, if_pos ((decAccepts_iff _).2 hs), if_neg hn.not_lt, if_pos hn]

theorem exec_dend_of_boundary (hs : s.dec.dst = .atRunStart) (hn : s.dec.dn.toNat = 0) :
    exec .dend s = .next (tookDI .fin s (cleanEnd s.dec)) := by
  rw [exec, execDend, if_pos ((decAccepts_iff _).2 hs), if_pos hn]

theorem exec_dend_of_tail (hs : s.dec.dst = .atRunStart) (hn : s.dec.dn.toNat ≠ 0) :
    exec .dend s = .next (tookDI .fin s (raiseTruncatedInput s.dec)) := by
  rw [exec, execDend, if_pos ((decAccepts_iff _).2 hs), if_neg hn]

/-! ### Field operations at a field boundary -/

theorem exec_run_of_fieldReady {n : Nat} (h : fieldReady s.dec = true) (h1 : 1 ≤ n) (hM : n ≤ maxCount s.W) :
    exec (.run n) s = .next { s with dec := runField (BitVec.ofNat s.W n) s.dec } := by
  rw [exec, execRun, if_pos ⟨h1, hM⟩, if_pos h]

theorem exec_esc_of_fieldReady (h : fieldReady s.dec = true) :
    exec .esc s = .next { s with dec := escField s.dec } := by
  rw [exec, execEsc, if_pos h]

theorem decodeField_of_zero {W : Nat} {c : CountField W} (h : c.toNat = 0) : decodeField c = .esc := if_pos h

theorem decodeField_of_pos {W : Nat} {c : CountField W} (h : 1 ≤ c.toNat) : decodeField c = .run c.toNat :=
  if_neg (by omega)

/-- The instruction a field selects (R85), standing alone at a field boundary, is the field operation that R132 runs
inside the wire bit. -/
theorem exec_decodeField_of_fieldReady (c : CountField s.W) (h : fieldReady s.dec = true) :
    exec (decodeField c) s = .next { s with dec := fieldOp c s.dec } := by
  rcases fieldOp_cases c s.dec with ⟨h0, hop⟩ | ⟨h1, hop⟩
  · rw [decodeField_of_zero h0, exec_esc_of_fieldReady h, hop]
  · rw [decodeField_of_pos h1, exec_run_of_fieldReady h h1 (field_le_maxCount c), hop, BitVec.ofNat_toNat,
      BitVec.setWidth_eq]

end Taken

/-! ### The pins of `DO` and the transfer on it -/

theorem portsOut_doValid (p : PortIn) (s : State) :
    (portsOut p s).doValid = ((decide (s.dec.dst = .inRun) || s.dec.dcl) && !p.decRst) := rfl

/-- With nothing on offer the pins of `DO` carry `0b00` (R138). -/
theorem portsOut_do_of_not_valid {p : PortIn} {s : State} (h : (portsOut p s).doValid = false) :
    (portsOut p s).doEnd = false ∧ (portsOut p s).doBit = false := by
  have hv : doValid p.decRst s.dec = false := h
  simp [portsOut, doCode, hv, codeEnd, codeBit]

/-- In `IN_RUN` the pins of `DO` carry `BIT(dpol)` (R135). -/
theorem portsOut_do_of_inRun {p : PortIn} {s : State} (hs : s.dec.dst = .inRun) (hr : p.decRst = false) :
    (portsOut p s).doEnd = false ∧ (portsOut p s).doBit = s.dec.dpol := by
  have hcode : doCode p.decRst s.dec = tokCode false s.dec.dpol := by
    simp [doCode, doValid, doTok, codeOfOutTok, hs, hr]
  simp [portsOut, hcode]

/-- In `DONE` with `dcl` set the pins of `DO` carry `CLOSE(derr)` (R138). -/
theorem portsOut_do_of_close {p : PortIn} {s : State} (hs : s.dec.dst = .done) (hc : s.dec.dcl = true)
    (hr : p.decRst = false) : (portsOut p s).doEnd = true ∧ (portsOut p s).doBit = s.dec.derr := by
  have hcode : doCode p.decRst s.dec = tokCode true s.dec.derr := by
    simp [doCode, doValid, doTok, codeOfOutTok, hs, hc, hr]
  simp [portsOut, hcode]

/-- After the closing token nothing is offered and nothing is taken (R138). -/
theorem portsOut_dec_of_over {s : State} (h : DecOver s) (q : PortIn) :
    (portsOut q s).doValid = false ∧ (portsOut q s).diReady = false := by
  obtain ⟨hs, hc⟩ := h
  exact ⟨by simp [portsOut_doValid, hs, hc], portsOut_diReady_of_ne (by simp [hs])⟩

/-- A decoder that waits for no field gives a willing sink the token on offer, whatever the source of `DI` offers. -/
theorem decEdge_of_doValid {p : PortIn} {s : State} (hs : s.dec.dst ≠ .atRunStart)
    (hv : (portsOut p s).doValid = true) (hr : p.decRst = false) (ho : p.doReady = true) :
    decEdge p s = doPop s := by
  have hd : diReady p.decRst s.dec = false := portsOut_diReady_of_ne hs
  have hv' : doValid p.decRst s.dec = true := hv
  rw [decEdge, if_neg (by simp [hr]), if_neg (by simp [hd]), if_pos (by simp [ho, hv'])]

theorem doPop_of_copies {s : State} (hs : s.dec.dst = .inRun) (h : 1 ≤ s.dec.drem.toNat) :
    doPop s = .next { s with dec := tookCopy s.dec, trDO := s.trDO ++ [OutTok.bit s.dec.dpol] } := by
  have h0 : s.dec.drem.toNat ≠ 0 := by omega
  simp [doPop, hs, doBit, h0]

theorem doPop_of_done {s : State} (hs : s.dec.dst = .done) : doPop s = .next (doClose s) := by
  simp [doPop, hs]

/-- Beside an idle encoder the transfer on `DO` is the whole step. -/
theorem step_of_doValid {s : State} {p : PortIn} {ps : List PortIn} (he : s.edges = p :: ps) (hi : EncIdle p)
    (hs : s.dec.dst ≠ .atRunStart) (hv : (portsOut p s).doValid = true) (hr : p.decRst = false)
    (ho : p.doReady = true) : step s = doPop { s with edges := ps } := by
  rw [step_of_edges he, encEdge_of_encIdle hi]
  exact decEdge_of_doValid (s := { s with edges := ps }) hs hv hr ho

/-! ### The obligations -/

/-- Settles O8: the bit is taken and runs `shiftBit`; `dn` has room for the count. -/
theorem decoderShiftsBit : Obligations.DecoderShiftsBit := by
  intro s b hs hn
  refine ⟨decodeToken_di_bit b, shiftIn s.dec.dsh b, bitCount s.W (s.dec.dn.toNat + 1), ?_, ?_, ?_⟩
  · exact exec_dbit_of_incomplete b hs hn
  · exact bitCount_toNat hn
  · exact fun i => shiftIn_getLsbD s.dec.dsh b

/-- Settles O9: the bit runs `completeField`, and the state it leaves to the field operation is at a boundary. -/
theorem decoderCompletesField : Obligations.DecoderCompletesField := by
  intro s b _ hs hn
  refine ⟨decodeToken_di_bit b, shiftIn s.dec.dsh b, fun i => shiftIn_getLsbD s.dec.dsh b, ?_⟩
  have hready : fieldReady (unpacked b s.dec) = true := (fieldReady_iff _).2 ⟨hs, bitCount_zero_toNat⟩
  calc exec (dbit b) s
      = .next (tookDI (.bit b) s (completeField b s.dec)) := exec_dbit_of_complete b hs hn
    _ = exec (decodeField (shiftIn s.dec.dsh b)) (tookDI (.bit b) s (unpacked b s.dec)) :=
        (exec_decodeField_of_fieldReady (s := tookDI (.bit b) s (unpacked b s.dec)) _ hready).symm

/-- Settles O11: the field `n` holds its value, so it selects `RUN n` and loads it. -/
theorem runLoadsTheCounter : Obligations.RunLoadsTheCounter := by
  intro s n hs hn h1 hM
  have hv : (BitVec.ofNat s.W n).toNat = n := by
    rw [BitVec.toNat_ofNat, Nat.mod_eq_of_lt (lt_two_pow_of_le_maxCount hM)]
  refine ⟨?_, BitVec.ofNat s.W n, hv, ?_⟩
  · rw [decodeField_of_pos (by rwa [hv]), hv]
  · exact exec_run_of_fieldReady ((fieldReady_iff _).2 ⟨hs, hn⟩) h1 hM

/-- Settles O12: the field 0 selects `ESC`, which runs at a boundary. -/
theorem escapeFlipsPolarity : Obligations.EscapeFlipsPolarity := fun _ hs hn =>
  ⟨decodeField_of_zero BitVec.toNat_zero, exec_esc_of_fieldReady ((fieldReady_iff _).2 ⟨hs, hn⟩)⟩

/-- Settles O13: the end marker on a boundary runs `cleanEnd`. -/
theorem decoderCleanEnd : Obligations.DecoderCleanEnd :=
  fun _ x hs hn => ⟨decodeToken_di_end x, exec_dend_of_boundary hs hn⟩

/-- Settles O14: the end marker inside a field runs `raiseTruncatedInput`, which writes three registers. -/
theorem truncatedInputIsTaken : Obligations.TruncatedInputIsTaken :=
  fun _ x hs hn => ⟨decodeToken_di_end x, exec_dend_of_tail hs hn⟩

/-- Settles O18: what the pins of `DO` show, and the step as `doPop` with a copy left. -/
theorem decoderRunStep : Obligations.DecoderRunStep := by
  intro s p ps he
  refine ⟨portsOut_doValid p s, fun hs h1 hr => ?_⟩
  obtain ⟨hend, hbit⟩ := portsOut_do_of_inRun hs hr
  have hv : (portsOut p s).doValid = true := by simp [portsOut_doValid, hs, hr]
  refine ⟨hend, hbit, fun ho hi => ?_⟩
  rw [step_of_doValid he hi (by simp [hs]) hv hr ho, ← tookCopy_of_copies h1]
  exact doPop_of_copies (s := { s with edges := ps }) hs h1

/-- Settles O19: what the pins of `DO` show, and the step as `doClose`, after which the invocation is over. -/
theorem decoderCloseStep : Obligations.DecoderCloseStep := by
  intro s p ps he
  refine ⟨portsOut_do_of_not_valid, fun hs hc hr => ?_⟩
  obtain ⟨hend, hbit⟩ := portsOut_do_of_close hs hc hr
  have hv : (portsOut p s).doValid = true := by simp [portsOut_doValid, hc, hr]
  refine ⟨hend, hbit, fun ho hi => ⟨doClose { s with edges := ps }, ?_, rfl, ?_⟩⟩
  · rw [step_of_doValid he hi (by simp [hs]) hv hr ho]
    exact doPop_of_done hs
  · exact portsOut_dec_of_over ⟨hs, rfl⟩

end Sys2Proof.Machine
end

section
/-! The obligations of 30_encoding: wire bits and their value (R57, R91), decode after encode, and the meaning of every
word (R88). First the value of a list of wire bits, then `decode` on each format, then the statements. -/

namespace Sys2Proof

open Machine

/-! ### Wire bits and their value -/

@[simp] theorem wireValue_nil : wireValue [] = 0 := rfl

theorem wireValue_concat (bits : List Bool) (b : Bool) :
    wireValue (bits ++ [b]) = 2 * wireValue bits + b.toNat := by
  simp [wireValue, List.foldl_append]

/-- The first wire bit is the most significant one (R57, R91). -/
theorem wireValue_cons (b : Bool) (bits : List Bool) :
    wireValue (b :: bits) = b.toNat * 2 ^ bits.length + wireValue bits := by
  induction bits using List.reverseRecOn with
  | nil => simp [wireValue]
  | append_singleton bits x ih =>
    rw [← List.cons_append, wireValue_concat, wireValue_concat, ih, List.length_append, List.length_singleton,
      Nat.pow_succ]
    ring

theorem wireValue_lt (bits : List Bool) : wireValue bits < 2 ^ bits.length := by
  induction bits with
  | nil => simp
  | cons b bits ih =>
    have hb : b.toNat * 2 ^ bits.length ≤ 2 ^ bits.length := mul_le_of_le_one_left (Nat.zero_le _) (Bool.toNat_le b)
    rw [wireValue_cons, List.length_cons, Nat.pow_succ]
    omega

@[simp] theorem bitsOfNat_length (n v : Nat) : (bitsOfNat n v).length = n := by simp [bitsOfNat]

@[simp] theorem bitsOfNat_zero (v : Nat) : bitsOfNat 0 v = [] := rfl

/-- The last wire bit is the least significant one (R57). -/
theorem bitsOfNat_succ (n v : Nat) : bitsOfNat (n + 1) v = bitsOfNat n (v / 2) ++ [v.testBit 0] := by
  have hbit : ∀ j ∈ List.range n, v.testBit (n + 1 - 1 - j) = (v / 2).testBit (n - 1 - j) := by
    intro j hj
    have hjn : j < n := List.mem_range.1 hj
    rw [← Nat.testBit_succ]
    congr 1
    omega
  rw [bitsOfNat, bitsOfNat, List.range_succ, List.map_append, List.map_congr_left hbit]
  simp

theorem wireValue_bitsOfNat (n v : Nat) : wireValue (bitsOfNat n v) = v % 2 ^ n := by
  induction n generalizing v with
  | zero => simp [Nat.mod_one]
  | succ n ih =>
    rw [bitsOfNat_succ, wireValue_concat, ih, Nat.toNat_testBit, Nat.pow_zero, Nat.div_one, Nat.pow_succ', Nat.mod_mul]
    omega

theorem wireValue_bitsOfNat_of_lt {n v : Nat} (h : v < 2 ^ n) : wireValue (bitsOfNat n v) = v := by
  rw [wireValue_bitsOfNat, Nat.mod_eq_of_lt h]

theorem bitsOfNat_wireValue (bits : List Bool) : bitsOfNat bits.length (wireValue bits) = bits := by
  induction bits using List.reverseRecOn with
  | nil => rfl
  | append_singleton bits b ih =>
    have hdiv : (2 * wireValue bits + b.toNat) / 2 = wireValue bits := by have := Bool.toNat_lt b; omega
    have hbit : (2 * wireValue bits + b.toNat).testBit 0 = b := by cases b <;> simp
    rw [List.length_append, List.length_singleton, bitsOfNat_succ, wireValue_concat, hdiv, hbit, ih]

/-- R91, by the first wire bit. -/
theorem wireValue_eq_sum (bits : List Bool) :
    wireValue bits =
      ((List.range bits.length).map
        (fun j => (bits.getD j false).toNat * 2 ^ (bits.length - 1 - j))).sum := by
  induction bits with
  | nil => rfl
  | cons b bits ih =>
    rw [wireValue_cons, ih, List.length_cons, List.range_succ_eq_map, List.map_cons, List.sum_cons, List.map_map]
    congr 2
    refine List.map_congr_left fun j _ => ?_
    simp only [Function.comp_apply, List.getD_cons_succ]
    congr 2
    omega

/-! ### Decoding each format -/

theorem ofNat_wireValue_pair (x y : Bool) : BitVec.ofNat 2 (wireValue [x, y]) = tokCode x y := by
  cases x <;> cases y <;> rfl

theorem decode_tok {W : Nat} (hW : 1 ≤ W) (st : InStream) (x y : Bool) :
    decode W (.tok st) [x, y] = .ok (decodeToken st (tokCode x y)) := by
  rw [decode, if_neg (by omega), ← ofNat_wireValue_pair]
  rfl

theorem decode_fld {W : Nat} (hW : 1 ≤ W) {bits : List Bool} (h : bits.length = W) :
    decode W .fld bits = .ok (decodeField (BitVec.ofNat W (wireValue bits))) := by
  rw [decode, if_neg (by omega)]
  exact if_pos h

theorem decode_bitsOfNat {W n : Nat} (hW : 1 ≤ W) (h : n ≤ maxCount W) :
    decode W .fld (bitsOfNat W n) = .ok (if n = 0 then .esc else .run n) := by
  have hlt : n < 2 ^ W := lt_two_pow_of_le_maxCount h
  rw [decode_fld hW (bitsOfNat_length W n), wireValue_bitsOfNat_of_lt hlt, decodeField, BitVec.toNat_ofNat,
    Nat.mod_eq_of_lt hlt]

/-! ### The operation a token selects -/

theorem instrOfTok_wf {W : Nat} (hW : 1 ≤ W) (st : InStream) (t : InTok) : (instrOfTok st t).wf W = true := by
  rcases st with _ | _ <;> rcases t with (_ | _) | _ <;> simp [instrOfTok, Instr.wf, hW]

theorem sourceOf_instrOfTok (st : InStream) (t : InTok) : sourceOf (instrOfTok st t) = .tok st := by
  rcases st with _ | _ <;> rcases t with (_ | _) | _ <;> rfl

theorem encode_instrOfTok_bit (W : Nat) (st : InStream) (b : Bool) :
    encode W (instrOfTok st (.bit b)) = [false, b] := by
  rcases st with _ | _ <;> rcases b with _ | _ <;> rfl

theorem encode_instrOfTok_fin (W : Nat) (st : InStream) : encode W (instrOfTok st .fin) = [true, false] := by
  cases st <;> rfl

theorem run_wf_iff (W n : Nat) : (Instr.run n).wf W = true ↔ 1 ≤ W ∧ 1 ≤ n ∧ n ≤ maxCount W := by
  simp [Instr.wf]

theorem wf_width {W : Nat} {i : Instr} (h : i.wf W = true) : 1 ≤ W := by
  unfold Instr.wf at h
  rw [Bool.and_eq_true] at h
  exact of_decide_eq_true h.1

/-- A two-bit word on a token stream: its operation encodes back to it, but for the ignored bit of an end token. -/
theorem decode_tok_meaning {W : Nat} (hW : 1 ≤ W) (st : InStream) (x y : Bool) :
    ∃ i : Instr, decode W (.tok st) [x, y] = .ok i ∧ i.wf W = true ∧ sourceOf i = .tok st ∧
      (encode W i = [x, y] ∨ [x, y] = [true, true] ∧ encode W i = [true, false]) := by
  refine ⟨_, decode_tok hW st x y, instrOfTok_wf hW st _, sourceOf_instrOfTok st _, ?_⟩
  rw [decodeToken, inTokOfCode_tokCode]
  cases x with
  | false => exact .inl (encode_instrOfTok_bit W st y)
  | true =>
    cases y with
    | false => exact .inl (encode_instrOfTok_fin W st)
    | true => exact .inr ⟨rfl, encode_instrOfTok_fin W st⟩

/-- `W` wire bits: their operation encodes back to them. -/
theorem decode_fld_meaning {bits : List Bool} (hW : 1 ≤ bits.length) :
    ∃ i : Instr, decode bits.length .fld bits = .ok i ∧ i.wf bits.length = true ∧ sourceOf i = .fld ∧
      encode bits.length i = bits := by
  have hbits := bitsOfNat_wireValue bits
  have hM : wireValue bits ≤ maxCount bits.length := Nat.le_sub_one_of_lt (wireValue_lt bits)
  have hdec := decode_bitsOfNat hW hM
  rw [hbits] at hdec
  refine ⟨_, hdec, ?_⟩
  split
  · rename_i h0
    exact ⟨by simp [Instr.wf, hW], rfl, by rwa [encode, ← h0]⟩
  · exact ⟨(run_wf_iff _ _).2 ⟨hW, by omega, hM⟩, rfl, hbits⟩

/-! ### The obligations -/

/-- Settles O27: a token's code selects its operation, and a field's wire bits have its operand as their value. -/
theorem decodeOfEncode : Obligations.DecodeOfEncode := by
  intro W i hwf
  have hW : 1 ≤ W := wf_width hwf
  cases i with
  | ebit0 | ebit1 | eend | dbit0 | dbit1 | dend => exact decode_tok hW _ _ _
  | run n =>
    obtain ⟨-, h1, hM⟩ := (run_wf_iff W n).1 hwf
    exact (decode_bitsOfNat hW hM).trans (by rw [if_neg (by omega)])
  | esc => exact decode_bitsOfNat hW (Nat.zero_le _)

/-- Settles O25: the sum by the first wire bit, the bits by the last. -/
theorem fieldOperandIsTheSumOfItsBits : Obligations.FieldOperandIsTheSumOfItsBits :=
  fun bits => ⟨wireValue_eq_sum bits, bitsOfNat_wireValue bits⟩

/-- Settles O28: a token word by the token it stands for, a field by its value. -/
theorem everyWordHasAMeaning : Obligations.EveryWordHasAMeaning := by
  intro W src bits hW hlen
  cases src with
  | tok st =>
    obtain ⟨x, y, rfl⟩ := List.length_eq_two.1 hlen
    obtain ⟨i, hdec, hwf, hsrc, henc⟩ := decode_tok_meaning hW st x y
    exact ⟨i, hdec, hwf, hsrc, henc.imp_right fun ⟨h, h'⟩ => ⟨⟨st, rfl⟩, h, h'⟩⟩
  | fld =>
    cases hlen
    obtain ⟨i, hdec, hwf, hsrc, henc⟩ := decode_fld_meaning hW
    exact ⟨i, hdec, hwf, hsrc, .inl henc⟩

/-- Settles O26: the token words by `decode_tok`, the fields by evaluation of their value. -/
theorem writtenOutWordsDecode : Obligations.WrittenOutWordsDecode := by
  refine ⟨?_, ?_, ?_, ?_, ?_, ?_, ?_, ?_, ?_⟩
  iterate 8 exact decode_tok (by decide) _ _ _
  decide

end Sys2Proof
end

section
/-! The obligations about one edge and about frames: what each unit takes and holds (R53, R54, R100, R130), what an
instruction leaves unchanged, and that the units do not see each other (R8). First each unit's part of an edge with a
token taken, with no transfer and with a stalled sink; then the instructions; then the two units beside each other. -/

namespace Sys2Proof.Machine

/-! ### A token taken -/

theorem portsOut_eiReady (p : PortIn) (s : State) :
    (portsOut p s).eiReady = (decide (s.enc.est ≠ .done) && decide (s.enc.eoq = []) && !p.encRst) := by
  cases hq : s.enc.eoq <;> simp [portsOut, eiReady, encAccepts, hq]

theorem portsOut_diReady (p : PortIn) (s : State) :
    (portsOut p s).diReady = (decide (s.dec.dst = .atRunStart) && !p.decRst) := rfl

/-- A token that is valid and ready on `EI` runs the operation its code selects (R53, R81). -/
theorem encEdge_of_taken {p : PortIn} {s : State} (hv : p.eiValid = true) (hr : (portsOut p s).eiReady = true) :
    encEdge p s = exec (decodeToken .ei (eiCode p)) s := by
  have hready : eiReady p.encRst s.enc = true := hr
  have hrst : p.encRst = false := by
    rw [portsOut_eiReady] at hr
    simpa using (Bool.and_eq_true_iff.1 hr).2
  rw [encEdge, if_neg (by simp [hrst]), if_pos (by simp [hv, hready])]

/-- A token that is valid and ready on `DI` runs the operation its code selects (R53, R82). -/
theorem decEdge_of_taken {p : PortIn} {s : State} (hv : p.diValid = true) (hs : s.dec.dst = .atRunStart)
    (hr : p.decRst = false) : decEdge p s = exec (decodeToken .di (diCode p)) s := by
  have hready : diReady p.decRst s.dec = true := (portsOut_diReady_iff p s).2 ⟨hs, hr⟩
  rw [decEdge, if_neg (by simp [hr]), if_pos (by simp [hv, hready])]

/-! ### No transfer -/

theorem encEdge_of_no_transfer {p : PortIn} {s : State} (hr : p.encRst = false)
    (hi : ¬ (p.eiValid = true ∧ (portsOut p s).eiReady = true))
    (ho : ¬ ((portsOut p s).eoValid = true ∧ p.eoReady = true)) : encEdge p s = .next s := by
  have hi' : ¬ (p.eiValid && eiReady p.encRst s.enc) = true := fun h => hi (Bool.and_eq_true_iff.1 h)
  have ho' : ¬ (p.eoReady && eoValid p.encRst s.enc) = true := fun h => ho (Bool.and_eq_true_iff.1 h).symm
  rw [encEdge, if_neg (by simp [hr]), if_neg hi', if_neg ho']

theorem decEdge_of_no_transfer {p : PortIn} {s : State} (hr : p.decRst = false)
    (hi : ¬ (p.diValid = true ∧ (portsOut p s).diReady = true))
    (ho : ¬ ((portsOut p s).doValid = true ∧ p.doReady = true)) : decEdge p s = .next s := by
  have hi' : ¬ (p.diValid && diReady p.decRst s.dec) = true := fun h => hi (Bool.and_eq_true_iff.1 h)
  have ho' : ¬ (p.doReady && doValid p.decRst s.dec) = true := fun h => ho (Bool.and_eq_true_iff.1 h).symm
  rw [decEdge, if_neg (by simp [hr]), if_neg hi', if_neg ho']

theorem eoq_ne_nil_of_eoValid {p : PortIn} {s : State} (h : (portsOut p s).eoValid = true) : s.enc.eoq ≠ [] := by
  rw [portsOut_eoValid] at h
  exact of_decide_eq_true (Bool.and_eq_true_iff.1 h).1

/-- While its sink stalls, an encoder with output to give waits (R54, R100). -/
theorem encEdge_of_stalled {p : PortIn} {s : State} (hr : p.encRst = false)
    (hv : (portsOut p s).eoValid = true) (ho : p.eoReady = false) : encEdge p s = .next s :=
  encEdge_of_no_transfer hr (by simp [portsOut_eiReady_of_eoq (eoq_ne_nil_of_eoValid hv)]) (by simp [ho])

/-- While its sink stalls, a decoder in `IN_RUN` or `DONE` waits (R54, R139). -/
theorem decEdge_of_stalled {p : PortIn} {s : State} (hr : p.decRst = false) (hs : s.dec.dst ≠ .atRunStart)
    (ho : p.doReady = false) : decEdge p s = .next s :=
  decEdge_of_no_transfer hr (by simp [portsOut_diReady_of_ne hs]) (by simp [ho])

/-- A decoder that offers a token waits for no field (R39). -/
theorem dst_ne_atRunStart_of_doValid {p : PortIn} {s : State} (hd : DecRegs s)
    (hv : (portsOut p s).doValid = true) : s.dec.dst ≠ .atRunStart := by
  obtain ⟨-, -, -, hdcl, -, -⟩ := hd
  intro hs
  have hc : s.dec.dcl = true := by
    rw [portsOut_doValid] at hv
    simpa [hs] using (Bool.and_eq_true_iff.1 hv).1
  exact absurd (hs.symm.trans (hdcl hc)) (by decide)

/-! ### The converses of `decEdge_next`, and the traces -/

section Converse

variable {p : PortIn} {s : State}

theorem not_diReady_of_not_taken (h : ¬ (p.diValid = true ∧ s.dec.dst = .atRunStart)) :
    ¬ (p.diValid = true ∧ (portsOut p s).diReady = true) :=
  fun ⟨hv, hr⟩ => h ⟨hv, ((portsOut_diReady_iff p s).1 hr).1⟩

/-- A willing sink takes a copy of the run (R135). -/
theorem decEdge_of_copy (hr : p.decRst = false) (ho : p.doReady = true) (hs : s.dec.dst = .inRun)
    (hn : 1 ≤ s.dec.drem.toNat) :
    decEdge p s = .next { s with dec := tookCopy s.dec, trDO := s.trDO ++ [OutTok.bit s.dec.dpol] } := by
  rw [decEdge_of_doValid (by simp [hs]) (by simp [portsOut_doValid, hs, hr]) hr ho, doPop_of_copies hs hn]

/-- A willing sink takes `CLOSE` (R138). -/
theorem decEdge_of_close (hr : p.decRst = false) (hi : ¬ (p.diValid = true ∧ s.dec.dst = .atRunStart))
    (ho : p.doReady = true) (hs : s.dec.dst ≠ .inRun) (hc : s.dec.dcl = true) :
    decEdge p s = .next (doClose s) := by
  have hi' : ¬ (p.diValid && diReady p.decRst s.dec) = true :=
    fun h => not_diReady_of_not_taken hi (Bool.and_eq_true_iff.1 h)
  rw [decEdge, if_neg (by simp [hr]), if_neg hi', if_pos (by simp [ho, doValid, hc, hr]), doPop]
  cases hd : s.dec.dst with
  | inRun => exact absurd hd hs
  | atRunStart | done => rfl

theorem decEdge_of_wait (hr : p.decRst = false) (hi : ¬ (p.diValid = true ∧ s.dec.dst = .atRunStart))
    (ho : ¬ (p.doReady = true ∧ (s.dec.dst = .inRun ∨ s.dec.dcl = true))) : decEdge p s = .next s := by
  refine decEdge_of_no_transfer hr (not_diReady_of_not_taken hi) fun ⟨hv, hrdy⟩ => ho ⟨hrdy, ?_⟩
  rw [portsOut_doValid] at hv
  simpa using (Bool.and_eq_true_iff.1 hv).1

theorem exec_decTok_trDI {x : InTok} {t : State} (h : exec (instrOfTok .di x) s = .next t)
    (hs : s.dec.dst = .atRunStart) : t.trDI = s.trDI ++ [x] := by
  cases x with
  | bit b =>
    rw [exec_decBit] at h
    rcases decBit_next h with ⟨_, _, rfl⟩ | ⟨_, _, rfl⟩ | ⟨hs', _⟩
    · rfl
    · rfl
    · exact absurd hs hs'
  | fin =>
    rw [exec_decFin] at h
    rcases execDend_cases s with ⟨_, _, h'⟩ | ⟨_, _, h'⟩ | ⟨hs', _⟩
    · cases h'.symm.trans h
      rfl
    · cases h'.symm.trans h
      rfl
    · exact absurd hs hs'

theorem exec_decTok_trDO {x : InTok} {t : State} (h : exec (instrOfTok .di x) s = .next t) : t.trDO = s.trDO := by
  obtain ⟨_, _, rfl⟩ := exec_decTok_frame h
  rfl

theorem decEdge_trEO {t : State} (h : decEdge p s = .next t) : t.trEO = s.trEO := by
  obtain ⟨_, _, _, rfl⟩ := decEdge_frame h
  rfl

/-- Without its reset the encoder transfers at most one token at an edge, on one of its streams (R53, R167). -/
theorem encEdge_transfers {u : State} (h : encEdge p s = .next u) (hr : p.encRst = false) :
    (u.trEI = s.trEI ∧ u.trEO = s.trEO) ∨ (∃ x, u.trEI = s.trEI ++ [x] ∧ u.trEO = s.trEO) ∨
    ∃ y, u.trEI = s.trEI ∧ u.trEO = s.trEO ++ [y] := by
  rcases encEdge_cases p s with ⟨hr', _⟩ | ⟨_, _, _, h'⟩ | ⟨_, _, _, y, _, _, h'⟩ | ⟨_, _, _, h'⟩
  · simp [hr] at hr'
  · cases h'.symm.trans h
    exact .inr (.inl ⟨_, rfl, rfl⟩)
  · cases h'.symm.trans h
    exact .inr (.inr ⟨y, rfl, rfl⟩)
  · cases h'.symm.trans h
    exact .inl ⟨rfl, rfl⟩

/-- Without its reset the decoder transfers at most one token at an edge, on one of its streams (R53, R167). -/
theorem decEdge_transfers {t : State} (h : decEdge p s = .next t) (hr : p.decRst = false) :
    (t.trDI = s.trDI ∧ t.trDO = s.trDO) ∨ (∃ x, t.trDI = s.trDI ++ [x] ∧ t.trDO = s.trDO) ∨
    ∃ y, t.trDI = s.trDI ∧ t.trDO = s.trDO ++ [y] := by
  rcases decEdge_next h with ⟨hr', _⟩ | ⟨_, _, hs, hx⟩ | ⟨_, _, _, _, rfl⟩ | ⟨_, _, _, _, _, rfl⟩ | ⟨_, _, _, rfl⟩
  · simp [hr] at hr'
  · exact .inr (.inl ⟨_, exec_decTok_trDI hx hs, exec_decTok_trDO hx⟩)
  · exact .inr (.inr ⟨_, rfl, rfl⟩)
  · exact .inr (.inr ⟨_, rfl, rfl⟩)
  · exact .inl ⟨rfl, rfl⟩

end Converse

/-! ### What an instruction changes -/

theorem completeField_dcl {W : Nat} (b : Bool) (d : Dec W) : (completeField b d).dcl = d.dcl := by
  unfold completeField
  rcases fieldOp_cases (shiftIn d.dsh b) (unpacked b d) with ⟨_, h⟩ | ⟨_, h⟩ <;> simp [h]

/-- An encoder bit only adds to the queue (R101). -/
theorem encBit_eoq {W : Nat} (b : Bool) (e : Enc W) : ∃ out, (encBit b e).eoq = e.eoq ++ out := by
  rcases encBit_cases b e with ⟨_, h⟩ | ⟨_, _, _, h⟩ | ⟨_, _, _, h⟩ | ⟨_, _, h⟩ | ⟨_, h⟩
  · cases b with
    | false => exact ⟨[], by simp [h, encFirst]⟩
    | true => exact ⟨fieldToks (0 : CountField W), by simp [h, encFirst]⟩
  · exact ⟨[], by simp [h, encContinue]⟩
  · exact ⟨fieldToks (fieldMax W) ++ fieldToks (0 : CountField W), by simp [h, encOverflow]⟩
  · exact ⟨fieldToks e.ecnt, by simp [h, encChange]⟩
  · exact ⟨[], by simp [h]⟩

/-- The encoder's end marker adds to the queue and keeps the run's registers (R102, R107, R108). -/
theorem encEnd_frame {W : Nat} (e : Enc W) :
    (∃ out, (encEnd e).eoq = e.eoq ++ out) ∧ (encEnd e).ebit = e.ebit ∧ (encEnd e).ecnt = e.ecnt := by
  rcases encEnd_cases e with ⟨_, h⟩ | ⟨_, h⟩ | ⟨_, h⟩
  · exact ⟨⟨[.close false], by simp [h]⟩, by simp [h], by simp [h]⟩
  · exact ⟨⟨fieldToks e.ecnt ++ [.close false], by simp [h]⟩, by simp [h], by simp [h]⟩
  · exact ⟨⟨[], by simp [h]⟩, by simp [h], by simp [h]⟩

/-- A token offered to the encoder answers a next state, which is the unit's new registers and the longer trace, or the
state itself. -/
theorem exec_encTok_cases (x : InTok) (s : State) :
    exec (instrOfTok .ei x) s = .next { s with enc := encTokOp x s.enc, trEI := s.trEI ++ [x] } ∨
    exec (instrOfTok .ei x) s = .next s := by
  rw [exec_encTok]
  cases ha : encAccepts s.enc with
  | true => exact .inl (by rw [offerEnc_of_accepts _ _ _ ha])
  | false => exact .inr (by rw [offerEnc_of_not_accepts _ _ _ ha])

theorem exec_encTok_frame (x : InTok) (s : State) :
    ∃ (e : Enc s.W) (tr : List InTok) (out : List OutTok),
      exec (instrOfTok .ei x) s = .next { s with enc := e, trEI := tr } ∧ e.eoq = s.enc.eoq ++ out ∧
      (x = .fin → e.ebit = s.enc.ebit ∧ e.ecnt = s.enc.ecnt) := by
  rcases exec_encTok_cases x s with h | h
  · cases x with
    | bit b =>
      obtain ⟨out, hout⟩ := encBit_eoq b s.enc
      exact ⟨_, _, out, h, hout, by simp⟩
    | fin =>
      obtain ⟨⟨out, hout⟩, hkeep⟩ := encEnd_frame s.enc
      exact ⟨_, _, out, h, hout, fun _ => hkeep⟩
  · exact ⟨s.enc, s.trEI, [], h, by simp, fun _ => ⟨rfl, rfl⟩⟩

theorem exec_encTok_of_not_accepts (x : InTok) {s : State} (h : s.enc.est = .done ∨ s.enc.eoq ≠ []) :
    exec (instrOfTok .ei x) s = .next s := by
  have ha : encAccepts s.enc = false := by
    rw [Bool.eq_false_iff, Ne, encAccepts_iff]
    exact fun ⟨hd, hq⟩ => h.elim hd fun hq' => hq' hq
  rw [exec_encTok, offerEnc_of_not_accepts _ _ _ ha]

theorem exec_decTok_of_not_accepts (x : InTok) {s : State} (h : s.dec.dst ≠ .atRunStart) :
    exec (instrOfTok .di x) s = .next s := by
  have ha : ¬ decAccepts s.dec = true := fun ha => h ((decAccepts_iff _).1 ha)
  cases x with
  | bit b => rw [exec_decBit, decBit, if_neg ha]
  | fin => rw [exec_decFin, execDend, if_neg ha]

theorem fieldReady_eq_false {s : State} (h : s.dec.dst ≠ .atRunStart ∨ s.dec.dn.toNat ≠ 0) :
    fieldReady s.dec = false := by
  rw [Bool.eq_false_iff, Ne, fieldReady_iff]
  exact fun ⟨hs, hn⟩ => h.elim (fun h' => h' hs) fun h' => h' hn

theorem exec_run_of_out_of_range {s : State} {n : Nat} (h : n = 0 ∨ maxCount s.W < n) :
    exec (.run n) s = .refused (.fieldOutOfRange n) := by
  rw [exec, execRun, if_neg (by omega)]

theorem exec_run_of_not_fieldReady {s : State} {n : Nat} (h : fieldReady s.dec = false) (h1 : 1 ≤ n)
    (hM : n ≤ maxCount s.W) : exec (.run n) s = .next s := by
  rw [exec, execRun, if_pos ⟨h1, hM⟩, if_neg (by simp [h])]

theorem exec_esc_of_not_fieldReady {s : State} (h : fieldReady s.dec = false) : exec .esc s = .next s := by
  rw [exec, execEsc, if_neg (by simp [h])]

theorem decBit_past_field (b : Bool) {s : State} (hs : s.dec.dst = .atRunStart) (hn : s.W - 1 < s.dec.dn.toNat) :
    decBit b s = .fault .bitCountPastField := by
  rw [decBit, if_pos ((decAccepts_iff _).2 hs), if_neg (by omega), if_neg (by omega)]

/-- Everything `RUN n` can do when it answers a next state (R133). -/
theorem exec_run_next {s t : State} {n : Nat} (h : exec (.run n) s = .next t) :
    t = { s with dec := runField (BitVec.ofNat s.W n) s.dec } ∨ t = s := by
  by_cases hn : 1 ≤ n ∧ n ≤ maxCount s.W
  · cases hf : fieldReady s.dec with
    | true => exact .inl (by cases (exec_run_of_fieldReady hf hn.1 hn.2).symm.trans h; rfl)
    | false => exact .inr (by cases (exec_run_of_not_fieldReady hf hn.1 hn.2).symm.trans h; rfl)
  · cases (exec_run_of_out_of_range (s := s) (n := n) (by omega)).symm.trans h

/-- Everything `ESC` can do (R134). -/
theorem exec_esc_next {s t : State} (h : exec .esc s = .next t) :
    t = { s with dec := escField s.dec } ∨ t = s := by
  cases hf : fieldReady s.dec with
  | true => exact .inl (by cases (exec_esc_of_fieldReady hf).symm.trans h; rfl)
  | false => exact .inr (by cases (exec_esc_of_not_fieldReady hf).symm.trans h; rfl)

/-- A wire bit leaves `derr` and `dcl` (R131, R132). -/
theorem decBit_frame {b : Bool} {s t : State} (h : decBit b s = .next t) :
    ∃ (d : Dec s.W) (tr : List InTok), t = { s with dec := d, trDI := tr } ∧
      d.derr = s.dec.derr ∧ d.dcl = s.dec.dcl := by
  rcases decBit_next h with ⟨_, _, rfl⟩ | ⟨_, _, rfl⟩ | ⟨_, rfl⟩
  · exact ⟨_, _, rfl, rfl, rfl⟩
  · exact ⟨_, _, rfl, completeField_derr _ _, completeField_dcl _ _⟩
  · exact ⟨_, _, rfl, rfl, rfl⟩

/-- The end marker leaves the unpacker, the polarity and the copy counter (R136, R137). -/
theorem execDend_frame {s t : State} (h : execDend s = .next t) :
    ∃ (d : Dec s.W) (tr : List InTok), t = { s with dec := d, trDI := tr } ∧
      d.dpol = s.dec.dpol ∧ d.dsh = s.dec.dsh ∧ d.dn = s.dec.dn ∧ d.drem = s.dec.drem := by
  rcases execDend_cases s with ⟨_, _, h'⟩ | ⟨_, _, h'⟩ | ⟨_, h'⟩
  all_goals
    cases h'.symm.trans h
    exact ⟨_, _, rfl, rfl, rfl, rfl, rfl⟩

/-! ### The units beside each other -/

theorem encEdge_congr_pins {p q : PortIn} (h : SameEncPins p q) (s : State) : encEdge p s = encEdge q s := by
  obtain ⟨hr, hv, he, hb, ho⟩ := h
  simp only [encEdge, eiCode, hr, hv, he, hb, ho]

theorem decEdge_congr_pins {p q : PortIn} (h : SameDecPins p q) (s : State) : decEdge p s = decEdge q s := by
  obtain ⟨hr, hv, he, hb, ho⟩ := h
  simp only [decEdge, diCode, hr, hv, he, hb, ho]

/-- `s` with another decoder, other decoder traces and other edges to come. -/
def besideDec (s : State) (d : Dec s.W) (di : List InTok) (dO : List OutTok) (es : List PortIn) : State :=
  { s with dec := d, trDI := di, trDO := dO, edges := es }

/-- `s` with another encoder, other encoder traces and other edges to come. -/
def besideEnc (s : State) (e : Enc s.W) (i : List InTok) (o : List OutTok) (es : List PortIn) : State :=
  { s with enc := e, trEI := i, trEO := o, edges := es }

/-- The encoder's part of an edge reads and writes nothing of the decoder (R8). -/
theorem encEdge_besideDec (p : PortIn) (s : State) :
    ∃ (e : Enc s.W) (i : List InTok) (o : List OutTok), ∀ d di dO es,
      encEdge p (besideDec s d di dO es) =
        .next { besideDec s d di dO es with enc := e, trEI := i, trEO := o } := by
  cases hr : p.encRst with
  | true => exact ⟨Enc.reset s.W, [], [], fun _ _ _ _ => encEdge_of_encRst hr _⟩
  | false =>
    by_cases hi : p.eiValid = true ∧ (portsOut p s).eiReady = true
    · have ha : encAccepts s.enc = true := (Bool.and_eq_true_iff.1 hi.2).1
      refine ⟨encTokOp (inTokOfCode (eiCode p)) s.enc, s.trEI ++ [inTokOfCode (eiCode p)], s.trEO,
        fun d di dO es => ?_⟩
      rw [encEdge_of_taken (s := besideDec s d di dO es) hi.1 hi.2, decodeToken, exec_encTok]
      exact congrArg _ (offerEnc_of_accepts _ _ _ ha)
    · by_cases ho : (portsOut p s).eoValid = true ∧ p.eoReady = true
      · obtain ⟨t, q, hq⟩ := List.exists_cons_of_ne_nil (eoq_ne_nil_of_eoValid ho.1)
        exact ⟨{ s.enc with eoq := q }, s.trEI, s.trEO ++ [t], fun d di dO es =>
          encEdge_of_eoq (s := besideDec s d di dO es) hq hr ho.2⟩
      · exact ⟨s.enc, s.trEI, s.trEO, fun d di dO es =>
          encEdge_of_no_transfer (s := besideDec s d di dO es) hr hi ho⟩

/-- A token of `DI` reads and writes nothing of the encoder (R8). -/
theorem exec_decTok_besideEnc {x : InTok} {s t : State} (h : exec (instrOfTok .di x) s = .next t) :
    ∃ (d : Dec s.W) (di : List InTok), ∀ e i o es,
      exec (instrOfTok .di x) (besideEnc s e i o es) = .next { besideEnc s e i o es with dec := d, trDI := di } := by
  by_cases hs : s.dec.dst = .atRunStart
  · cases x with
    | bit b =>
      rw [exec_decBit] at h
      simp only [exec_decBit, ← exec_dbit]
      rcases decBit_next h with ⟨_, hn, _⟩ | ⟨_, hn, _⟩ | ⟨hs', _⟩
      · exact ⟨shiftBit b s.dec, s.trDI ++ [InTok.bit b], fun e i o es =>
          exec_dbit_of_incomplete (s := besideEnc s e i o es) b hs hn⟩
      · exact ⟨completeField b s.dec, s.trDI ++ [InTok.bit b], fun e i o es =>
          exec_dbit_of_complete (s := besideEnc s e i o es) b hs hn⟩
      · exact absurd hs hs'
    | fin =>
      by_cases hn : s.dec.dn.toNat = 0
      · exact ⟨cleanEnd s.dec, s.trDI ++ [InTok.fin], fun e i o es =>
          exec_dend_of_boundary (s := besideEnc s e i o es) hs hn⟩
      · exact ⟨raiseTruncatedInput s.dec, s.trDI ++ [InTok.fin], fun e i o es =>
          exec_dend_of_tail (s := besideEnc s e i o es) hs hn⟩
  · exact ⟨s.dec, s.trDI, fun e i o es => exec_decTok_of_not_accepts (s := besideEnc s e i o es) x hs⟩

/-- The decoder's part of an edge reads and writes nothing of the encoder (R8). -/
theorem decEdge_besideEnc {p : PortIn} {s t : State} (h : decEdge p s = .next t) :
    ∃ (d : Dec s.W) (di : List InTok) (dO : List OutTok), ∀ e i o es,
      decEdge p (besideEnc s e i o es) = .next { besideEnc s e i o es with dec := d, trDI := di, trDO := dO } := by
  rcases decEdge_next h with ⟨hr, _⟩ | ⟨hr, hv, hs, hx⟩ | ⟨hr, ho, hs, hn, _⟩ | ⟨hr, hi, ho, hs, hc, _⟩ |
    ⟨hr, hi, ho, _⟩
  · exact ⟨Dec.reset s.W, [], [], fun _ _ _ _ => decEdge_of_decRst hr _⟩
  · obtain ⟨d, di, hd⟩ := exec_decTok_besideEnc hx
    exact ⟨d, di, s.trDO, fun e i o es =>
      (decEdge_of_taken (s := besideEnc s e i o es) hv hs hr).trans (hd e i o es)⟩
  · refine ⟨tookCopy s.dec, s.trDI, s.trDO ++ [OutTok.bit s.dec.dpol], fun e i o es => ?_⟩
    exact decEdge_of_copy (s := besideEnc s e i o es) hr ho hs (Nat.one_le_iff_ne_zero.2 hn)
  · exact ⟨{ s.dec with dcl := false }, s.trDI, s.trDO ++ [OutTok.close s.dec.derr], fun e i o es =>
      decEdge_of_close (s := besideEnc s e i o es) hr hi ho hs hc⟩
  · exact ⟨s.dec, s.trDI, s.trDO, fun e i o es =>
      decEdge_of_wait (s := besideEnc s e i o es) hr hi ho⟩

/-! ### The whole edge -/

theorem clockEdge_next {p : PortIn} {s t : State} (h : clockEdge p s = .next t) :
    ∃ u, encEdge p s = .next u ∧ decEdge p u = .next t := andThen_next h

theorem clockEdge_W {p : PortIn} {s t : State} (h : clockEdge p s = .next t) : t.W = s.W := by
  obtain ⟨u, hu, ht⟩ := clockEdge_next h
  obtain ⟨_, _, _, rfl⟩ := encEdge_frame hu
  obtain ⟨_, _, _, rfl⟩ := decEdge_frame ht
  rfl

/-! ### The obligations -/

/-- Settles O7: `ei_ready` in the words of the registers, and a token that is not taken. -/
theorem encoderHoldsItsInput : Obligations.EncoderHoldsItsInput := fun s p =>
  ⟨portsOut_eiReady p s, fun h => ⟨exec_encTok_of_not_accepts (.bit false) h, exec_encTok_of_not_accepts (.bit true) h,
    exec_encTok_of_not_accepts .fin h⟩⟩

/-- Settles O10: the field operation is chosen by the value of the shifted field. -/
theorem decoderFieldTakesEffect : Obligations.DecoderFieldTakesEffect := by
  intro s b _ hs hn
  refine ⟨shiftIn s.dec.dsh b, fun i => shiftIn_getLsbD s.dec.dsh b, ?_⟩
  rw [exec_dbit_of_complete b hs hn]
  rfl

/-- Settles O15: `di_ready` in the words of the registers, and a token that is not taken. -/
theorem decoderHoldsItsInput : Obligations.DecoderHoldsItsInput := fun s p =>
  ⟨portsOut_diReady p s, fun h => ⟨exec_decTok_of_not_accepts (.bit false) h, exec_decTok_of_not_accepts (.bit true) h,
    exec_decTok_of_not_accepts .fin h⟩⟩

/-- Settles O16: each clause is the case of one operation outside its rules. -/
theorem outOfRuleCasesAreNamed : Obligations.OutOfRuleCasesAreNamed := by
  intro s
  refine ⟨fun n => exec_run_of_out_of_range, fun h => ?_, fun hs hn => ?_⟩
  · have hf := fieldReady_eq_false h
    exact ⟨exec_esc_of_not_fieldReady hf, fun n => exec_run_of_not_fieldReady hf⟩
  · exact ⟨decBit_past_field false hs hn, decBit_past_field true hs hn⟩

/-- Settles O21: the reset state is written out by its definition. -/
theorem resetValues : Obligations.ResetValues := ⟨rfl, fun _ => rfl⟩

/-- Settles O29: a token taken is the operation its code selects; the encoder's leaves the decoder ready. -/
theorem stepRunsTheDecodedOperation : Obligations.StepRunsTheDecodedOperation := by
  intro s p ps he
  rw [step_of_edges he]
  refine ⟨fun hv hr hd => ?_, fun hv hr hi => ?_, fun hv hr hv' hr' => ?_⟩
  · rw [encEdge_of_taken (s := { s with edges := ps }) hv hr, eiCode, decodeToken, exec_encTok]
    exact decEdge_of_decIdle hd _
  · obtain ⟨hs, hrst⟩ := (portsOut_diReady_iff p s).1 hr
    rw [encEdge_of_encIdle hi]
    exact decEdge_of_taken (s := { s with edges := ps }) hv hs hrst
  · obtain ⟨hs, hrst⟩ := (portsOut_diReady_iff p s).1 hr'
    rw [encEdge_of_taken (s := { s with edges := ps }) hv hr]
    obtain ⟨e, tr, _, hu, -, -⟩ := exec_encTok_frame (inTokOfCode (eiCode p)) { s with edges := ps }
    refine ⟨_, hu, ?_⟩
    rw [decodeToken, hu]
    exact decEdge_of_taken (s := { s with enc := e, trEI := tr, edges := ps }) hv' hs hrst

/-- Settles O30: neither unit has a transfer. -/
theorem stepWithoutTransferWaits : Obligations.StepWithoutTransferWaits := by
  intro s p ps he ⟨hr, hd⟩ hi ho hdi hdo
  rw [step_of_edges he, encEdge_of_no_transfer (s := { s with edges := ps }) hr hi ho]
  exact decEdge_of_no_transfer (s := { s with edges := ps }) hd hdi hdo

/-- Settles O31: a unit whose sink stalls waits, so the pins show the same token after the edge. -/
theorem offeredTokensAreHeld : Obligations.OfferedTokensAreHeld := by
  intro s t p q ps ⟨_, _, hdec⟩ he ⟨hr, hd⟩ ⟨hqr, hqd⟩ h
  obtain ⟨e, tr, tr', hu, ht⟩ := step_parts he h
  refine ⟨fun hv ho => ?_, fun hv ho => ?_⟩
  · have hwait := encEdge_of_stalled (s := { s with edges := ps }) hr hv ho
    cases hwait.symm.trans hu
    obtain ⟨d, di, dO, rfl⟩ := decEdge_frame ht
    simp only [portsOut, hr, hqr] at hv ⊢
    exact ⟨hv, trivial, trivial⟩
  · have hs := dst_ne_atRunStart_of_doValid hdec hv
    have hwait := decEdge_of_stalled (s := { s with enc := e, trEI := tr, trEO := tr', edges := ps }) hd hs ho
    cases hwait.symm.trans ht
    simp only [portsOut, hd, hqd] at hv ⊢
    exact ⟨hv, trivial, trivial⟩

/-- Settles O32: each of the three is a token of `EI`. -/
theorem encoderInstructionsFrame : Obligations.EncoderInstructionsFrame := by
  rintro s i (rfl | rfl | rfl)
  · obtain ⟨e, tr, out, h, hout, _⟩ := exec_encTok_frame (.bit false) s
    exact ⟨e, tr, out, h, hout, by simp⟩
  · obtain ⟨e, tr, out, h, hout, _⟩ := exec_encTok_frame (.bit true) s
    exact ⟨e, tr, out, h, hout, by simp⟩
  · obtain ⟨e, tr, out, h, hout, hkeep⟩ := exec_encTok_frame .fin s
    exact ⟨e, tr, out, h, hout, fun _ => hkeep rfl⟩

/-- Settles O33: each instruction by the lemma that says all it can do. -/
theorem decoderInstructionsFrame : Obligations.DecoderInstructionsFrame := by
  intro s t i
  refine ⟨?_, ?_, ?_, ?_⟩
  · rintro (rfl | rfl) h <;> exact decBit_frame h
  · rintro rfl h
    exact execDend_frame h
  · rintro ⟨n, rfl⟩ h
    rcases exec_run_next h with rfl | rfl <;> exact ⟨_, rfl, rfl, rfl, rfl, rfl, rfl⟩
  · rintro rfl h
    rcases exec_esc_next h with rfl | rfl <;> exact ⟨_, rfl, rfl, rfl, rfl, rfl, rfl, rfl⟩

/-- Settles O34: the decoder's part of the edge is the same beside either encoder. -/
theorem decoderIsIndependentOfEncoder : Obligations.DecoderIsIndependentOfEncoder := by
  intro W e₁ e₂ d i₁ i₂ di o₁ o₂ dO p₁ p₂ ps₁ ps₂ t₁ hp h
  obtain ⟨e₁', i₁', o₁', -, ht⟩ := step_parts rfl h
  obtain ⟨e₂', i₂', o₂', henc⟩ := encEdge_besideDec p₂ ⟨W, e₂, d, i₂, o₂, di, dO, ps₂⟩
  obtain ⟨d', di', dO', hdec⟩ := decEdge_besideEnc ht
  refine ⟨e₁', e₂', d', i₁', i₂', di', o₁', o₂', dO', ?_, ?_⟩
  · exact Host.Outcome.next.inj (ht.symm.trans (hdec e₁' i₁' o₁' ps₁))
  · calc step ⟨W, e₂, d, i₂, o₂, di, dO, p₂ :: ps₂⟩
        = andThen (encEdge p₂ ⟨W, e₂, d, i₂, o₂, di, dO, ps₂⟩) (decEdge p₂) := step_of_edges rfl
      _ = decEdge p₂ ⟨W, e₂', d, i₂', o₂', di, dO, ps₂⟩ := congrArg (andThen · (decEdge p₂)) (henc d di dO ps₂)
      _ = decEdge p₁ ⟨W, e₂', d, i₂', o₂', di, dO, ps₂⟩ := (decEdge_congr_pins hp _).symm
      _ = _ := hdec e₂' i₂' o₂' ps₂

/-- Settles O35: the encoder's part of the edge is the same beside either decoder, and the decoder's leaves it. -/
theorem encoderIsIndependentOfDecoder : Obligations.EncoderIsIndependentOfDecoder := by
  intro W e d₁ d₂ i i₁ i₂ o o₁ o₂ p₁ p₂ ps₁ ps₂ t₁ t₂ hp h₁ h₂
  obtain ⟨e', i', o', henc⟩ := encEdge_besideDec p₁ ⟨W, e, d₁, i, o, i₁, o₁, ps₁⟩
  obtain ⟨_, _, _, hu₁, ht₁⟩ := step_parts rfl h₁
  obtain ⟨_, _, _, hu₂, ht₂⟩ := step_parts rfl h₂
  rw [← encEdge_congr_pins hp] at hu₂
  cases hu₁.symm.trans (henc d₁ i₁ o₁ ps₁)
  cases hu₂.symm.trans (henc d₂ i₂ o₂ ps₂)
  obtain ⟨d₁', i₁', o₁', rfl⟩ := decEdge_frame ht₁
  obtain ⟨d₂', i₂', o₂', rfl⟩ := decEdge_frame ht₂
  exact ⟨e', d₁', d₂', i', i₁', i₂', o', o₁', o₂', rfl, rfl⟩

/-- Settles O40: neither unit's part of an edge writes the width. -/
theorem widthNeverChanges : Obligations.WidthNeverChanges := fun s _ h =>
  clockEdge_W (s := { s with edges := s.edges.tail }) h

/-- Settles O43: the cases of each unit's part of an edge but the reset. -/
theorem atMostOneTransferPerEdge : Obligations.AtMostOneTransferPerEdge := by
  intro s t p ps he h
  obtain ⟨e, tr, tr', hu, ht⟩ := step_parts he h
  refine ⟨fun hr => ?_, fun hr => ?_⟩
  · have hEI : t.trEI = tr := decEdge_trEI ht
    have hEO : t.trEO = tr' := decEdge_trEO ht
    rw [hEI, hEO]
    exact encEdge_transfers hu hr
  · exact (decEdge_transfers ht hr :)

end Sys2Proof.Machine
end

section
/-! The register invariants of 10_state (R38, R39): each unit's part of an edge keeps its own unit's and leaves the
other's alone, and under them no part of an edge stops. -/

namespace Sys2Proof.Machine

/-! ### The encoder's registers -/

theorem one_toNat {W : Nat} (hW : 1 ≤ W) : (1#W).toNat = 1 := by
  have h1 : 1 < 2 ^ W := Nat.one_lt_two_pow (by omega)
  simp [Nat.mod_eq_of_lt h1]

/-- The register invariant of `ENC` on its registers alone (R38). -/
def EncOk {W : Nat} (e : Enc W) : Prop :=
  (e.est = .inRun → 1 ≤ e.ecnt.toNat) ∧ e.eoq.length ≤ Config.queueCapacity W

theorem encRegs_iff (s : State) : EncRegs s ↔ EncOk s.enc := by
  simp [EncRegs, EncOk, field_le_maxCount]

section Enc

variable {W : Nat} {e : Enc W}

theorem encOk_reset (W : Nat) : EncOk (Enc.reset W) := by simp [EncOk, Enc.reset]

/-- A ready encoder's queue is empty, so the two fields of an overflow, or a field and `CLOSE`, fit it (R38). -/
theorem encTokOp_ok (hW : 1 ≤ W) (h : EncOk e) (ha : encAccepts e = true) (x : InTok) : EncOk (encTokOp x e) := by
  obtain ⟨hcnt, hcap⟩ := h
  obtain ⟨hd, hq⟩ := (encAccepts_iff e).1 ha
  have h1 := one_toNat hW
  cases x with
  | bit b =>
    rw [encTokOp]
    rcases encBit_cases b e with ⟨_, h⟩ | ⟨hs, _, hn, h⟩ | ⟨_, _, _, h⟩ | ⟨_, _, h⟩ | ⟨hs, _⟩
    · rw [h, encFirst_of_empty hq]
      refine ⟨fun _ => h1.ge, ?_⟩
      cases b with
      | false => exact Nat.zero_le _
      | true =>
        simp only [Config.queueCapacity, if_true, List.length_replicate]
        omega
    · rw [h, encContinue_eq]
      exact ⟨fun _ => by simp [ecnt_add_one_toNat hn], hcap⟩
    · rw [h, encOverflow_of_empty hq]
      refine ⟨fun _ => h1.ge, ?_⟩
      simp only [Config.queueCapacity, List.length_append, List.length_replicate]
      omega
    · rw [h, encChange_of_empty hq]
      refine ⟨fun _ => h1.ge, ?_⟩
      simp only [Config.queueCapacity, outBits, List.length_map, bitsOfNat_length]
      omega
    · exact absurd hs hd
  | fin =>
    rw [encTokOp]
    rcases encEnd_cases e with ⟨hs, _⟩ | ⟨hs, _⟩ | ⟨hs, _⟩
    · rw [encEnd_of_atRunStart hs hq]
      refine ⟨by simp, ?_⟩
      simp only [Config.queueCapacity, List.length_singleton]
      omega
    · rw [encEnd_of_inRun hs hq]
      refine ⟨by simp, ?_⟩
      simp only [Config.queueCapacity, outBits, List.length_append, List.length_map, bitsOfNat_length,
        List.length_singleton]
      omega
    · exact absurd hs hd

theorem encOk_pop {t : OutTok} {q : List OutTok} (h : EncOk e) (hq : e.eoq = t :: q) : EncOk { e with eoq := q } := by
  obtain ⟨hcnt, hcap⟩ := h
  rw [hq, List.length_cons] at hcap
  exact ⟨hcnt, Nat.le_of_succ_le hcap⟩

end Enc

theorem encEdge_keeps_encRegs {p : PortIn} {s u : State} (hW : 1 ≤ s.W) (hs : EncRegs s)
    (h : encEdge p s = .next u) : EncRegs u := by
  rw [encRegs_iff] at hs ⊢
  rcases encEdge_cases p s with ⟨_, h'⟩ | ⟨_, _, ha, h'⟩ | ⟨_, _, _, t, q, hq, h'⟩ | ⟨_, _, _, h'⟩
  · cases h'.symm.trans h
    exact encOk_reset s.W
  · cases h'.symm.trans h
    exact encTokOp_ok hW hs ha _
  · cases h'.symm.trans h
    exact encOk_pop hs hq
  · cases h'.symm.trans h
    exact hs

/-! ### The decoder's registers -/

/-- The register invariant of `DEC` on its registers alone (R39). -/
def DecOk {W : Nat} (d : Dec W) : Prop :=
  (d.dst = .inRun ↔ 1 ≤ d.drem.toNat) ∧ d.dn.toNat ≤ W - 1 ∧ (d.dst = .inRun → d.dn.toNat = 0) ∧
  (d.dcl = true → d.dst = .done) ∧ (d.derr = true → d.dst = .done)

theorem decRegs_iff (s : State) : DecRegs s ↔ DecOk s.dec := by
  simp [DecRegs, DecOk, field_le_maxCount]

section Dec

variable {W : Nat} {d : Dec W}

theorem decOk_reset (W : Nat) : DecOk (Dec.reset W) := by simp [DecOk, Dec.reset]

/-- A waiting decoder has no copies left, no `CLOSE` pending and no error (R39). -/
theorem decOk_atRunStart (h : DecOk d) (hs : d.dst = .atRunStart) :
    d.drem.toNat = 0 ∧ d.dcl = false ∧ d.derr = false := by
  obtain ⟨hrem, -, -, hcl, herr⟩ := h
  simpa [hs] using And.intro hrem (And.intro hcl herr)

theorem shiftBit_ok (h : DecOk d) (hs : d.dst = .atRunStart) (hn : d.dn.toNat < W - 1) (b : Bool) :
    DecOk (shiftBit b d) := by
  obtain ⟨hrem, hcl, herr⟩ := decOk_atRunStart h hs
  refine ⟨by simp [hs, hrem], ?_, by simp [hs], by simp [hcl], by simp [herr]⟩
  rw [shiftBit_dn, bitCount_toNat hn]
  exact hn

theorem completeField_ok (h : DecOk d) (hs : d.dst = .atRunStart) (b : Bool) : DecOk (completeField b d) := by
  obtain ⟨hrem, hcl, herr⟩ := decOk_atRunStart h hs
  rcases fieldOp_cases (shiftIn d.dsh b) (unpacked b d) with ⟨_, h'⟩ | ⟨hc, h'⟩
  · rw [completeField, h']
    simp [DecOk, hs, hrem, hcl, herr]
  · rw [completeField, h']
    simp [DecOk, hc, hcl, herr]

theorem cleanEnd_ok (h : DecOk d) (hs : d.dst = .atRunStart) : DecOk (cleanEnd d) := by
  obtain ⟨hrem, -, -⟩ := decOk_atRunStart h hs
  obtain ⟨-, hn, -, -, -⟩ := h
  simp [DecOk, hrem, hn]

theorem raiseTruncatedInput_ok (h : DecOk d) (hs : d.dst = .atRunStart) : DecOk (raiseTruncatedInput d) := by
  obtain ⟨hrem, -, -⟩ := decOk_atRunStart h hs
  obtain ⟨-, hn, -, -, -⟩ := h
  simp [DecOk, hrem, hn]

/-- Below the last copy the counter goes down by one (R135). -/
theorem drem_pred_toNat {v : CountField W} : (BitVec.ofNat W (v.toNat - 1)).toNat = v.toNat - 1 := by
  rw [BitVec.toNat_ofNat, Nat.mod_eq_of_lt (by have := v.isLt; omega)]

theorem tookCopy_ok (h : DecOk d) (hs : d.dst = .inRun) : DecOk (tookCopy d) := by
  obtain ⟨hrem, hn, hn0, hcl, herr⟩ := h
  simp only [hs, true_iff, forall_const] at hrem hn0
  have hcl' : d.dcl = false := by simpa [hs] using hcl
  have herr' : d.derr = false := by simpa [hs] using herr
  unfold tookCopy
  split
  · simp [DecOk, hn, hcl', herr']
  · have hleft : 1 ≤ d.drem.toNat - 1 := by omega
    exact ⟨iff_of_true hs (hleft.trans_eq drem_pred_toNat.symm), hn, fun _ => hn0, by simp [hcl'], by simp [herr']⟩

theorem closed_ok (h : DecOk d) : DecOk { d with dcl := false } := by
  obtain ⟨hrem, hn, hn0, -, herr⟩ := h
  exact ⟨hrem, hn, hn0, by simp, herr⟩

end Dec

theorem exec_decTok_keeps_decRegs {x : InTok} {s t : State} (hs : DecRegs s) (hd : s.dec.dst = .atRunStart)
    (h : exec (instrOfTok .di x) s = .next t) : DecRegs t := by
  rw [decRegs_iff] at hs ⊢
  cases x with
  | bit b =>
    rw [exec_decBit] at h
    rcases decBit_next h with ⟨_, hn, rfl⟩ | ⟨_, _, rfl⟩ | ⟨hd', _⟩
    · exact shiftBit_ok hs hd hn b
    · exact completeField_ok hs hd b
    · exact absurd hd hd'
  | fin =>
    rw [exec_decFin] at h
    rcases execDend_cases s with ⟨_, _, h'⟩ | ⟨_, _, h'⟩ | ⟨hd', _⟩
    · cases h'.symm.trans h
      exact cleanEnd_ok hs hd
    · cases h'.symm.trans h
      exact raiseTruncatedInput_ok hs hd
    · exact absurd hd hd'

theorem decEdge_keeps_decRegs {p : PortIn} {s t : State} (hs : DecRegs s) (h : decEdge p s = .next t) :
    DecRegs t := by
  rcases decEdge_next h with ⟨_, rfl⟩ | ⟨_, _, hd, hx⟩ | ⟨_, _, hd, _, rfl⟩ | ⟨_, _, _, _, _, rfl⟩ | ⟨_, _, _, rfl⟩
  · exact (decRegs_iff _).2 (decOk_reset s.W)
  · exact exec_decTok_keeps_decRegs hs hd hx
  · exact (decRegs_iff _).2 (tookCopy_ok ((decRegs_iff s).1 hs) hd)
  · exact (decRegs_iff _).2 (closed_ok ((decRegs_iff s).1 hs))
  · exact hs

/-! ### No part of an edge stops -/

theorem encEdge_succeeds (p : PortIn) (s : State) : ∃ u, encEdge p s = .next u := by
  rcases encEdge_cases p s with ⟨_, h⟩ | ⟨_, _, _, h⟩ | ⟨_, _, _, _, _, _, h⟩ | ⟨_, _, _, h⟩
  all_goals exact ⟨_, h⟩

/-- A token of `DI` stops the machine only with `dn` past the field (R39). -/
theorem exec_decTok_succeeds {s : State} (hs : DecRegs s) (x : InTok) : ∃ t, exec (instrOfTok .di x) s = .next t := by
  obtain ⟨-, hn, -, -, -⟩ := (decRegs_iff s).1 hs
  cases x with
  | bit b =>
    rw [exec_decBit, ← exec_dbit]
    by_cases hd : s.dec.dst = .atRunStart
    · rcases Nat.lt_or_eq_of_le hn with hlt | heq
      · exact ⟨_, exec_dbit_of_incomplete b hd hlt⟩
      · exact ⟨_, exec_dbit_of_complete b hd heq⟩
    · rw [exec_dbit, ← exec_decBit]
      exact ⟨s, exec_decTok_of_not_accepts _ hd⟩
  | fin =>
    rw [exec_decFin]
    rcases execDend_cases s with ⟨_, _, h⟩ | ⟨_, _, h⟩ | ⟨_, h⟩ <;> exact ⟨_, h⟩

theorem decEdge_succeeds (p : PortIn) {s : State} (hs : DecRegs s) : ∃ t, decEdge p s = .next t := by
  obtain ⟨hrem, -, -, -, -⟩ := (decRegs_iff s).1 hs
  cases hr : p.decRst with
  | true => exact ⟨_, decEdge_of_decRst hr s⟩
  | false =>
    by_cases hi : p.diValid = true ∧ s.dec.dst = .atRunStart
    · rw [decEdge_of_taken hi.1 hi.2 hr]
      exact exec_decTok_succeeds hs _
    · by_cases ho : p.doReady = true ∧ (s.dec.dst = .inRun ∨ s.dec.dcl = true)
      · by_cases hd : s.dec.dst = .inRun
        · exact ⟨_, decEdge_of_copy hr ho.1 hd (hrem.1 hd)⟩
        · exact ⟨_, decEdge_of_close hr hi ho.1 hd (ho.2.resolve_left hd)⟩
      · exact ⟨_, decEdge_of_wait hr hi ho⟩

/-! ### One edge, whatever the environment does -/

theorem encEdge_keeps_decRegs {p : PortIn} {s u : State} (hs : DecRegs s) (h : encEdge p s = .next u) :
    DecRegs u := by
  obtain ⟨_, _, _, rfl⟩ := encEdge_frame h
  exact hs

theorem decEdge_keeps_encRegs {p : PortIn} {s t : State} (hs : EncRegs s) (h : decEdge p s = .next t) :
    EncRegs t := by
  obtain ⟨_, _, _, rfl⟩ := decEdge_frame h
  exact hs

theorem clockEdge_keeps_regsOk {p : PortIn} {s t : State} (hs : RegsOk s) (h : clockEdge p s = .next t) :
    RegsOk t := by
  obtain ⟨hW, henc, hdec⟩ := hs
  obtain ⟨u, hu, ht⟩ := clockEdge_next h
  refine ⟨(clockEdge_W h).symm ▸ hW, ?_, ?_⟩
  · exact decEdge_keeps_encRegs (encEdge_keeps_encRegs hW henc hu) ht
  · exact decEdge_keeps_decRegs (encEdge_keeps_decRegs hdec hu) ht

theorem clockEdge_succeeds (p : PortIn) {s : State} (hs : RegsOk s) : ∃ t, clockEdge p s = .next t := by
  obtain ⟨-, -, hdec⟩ := hs
  obtain ⟨u, hu⟩ := encEdge_succeeds p s
  rw [clockEdge, hu]
  exact decEdge_succeeds p (encEdge_keeps_decRegs hdec hu)

/-! ### The obligations -/

/-- Settles O37: a step is an edge of the environment's list, and the invariant does not read the list. -/
theorem registerInvariantIsKept : Obligations.RegisterInvariantIsKept :=
  fun s _ hs h => clockEdge_keeps_regsOk (s := { s with edges := s.edges.tail }) hs h

/-- Settles O39: the encoder's part of an edge never stops, and the decoder's does only outside the invariant. -/
theorem everyStepSucceedsUnderTheInvariant : Obligations.EveryStepSucceedsUnderTheInvariant :=
  fun s hs => clockEdge_succeeds (nextPins s) (s := { s with edges := s.edges.tail }) hs

end Sys2Proof.Machine
end

section
/-! The obligations about finite sequences: `Pack` and `Unpack` (R67), `split` (R112), `Encode` (R114) and `Decode`
(R140). First what `Unpack` makes of a sequence, of one bit more and of a field in front; then the fields of a run and
of a sequence, and of one bit more; then `Decode` of them, and their number. -/

namespace Sys2Proof.Machine

/-! ### `Pack` -/

@[simp] theorem pack_nil (W : Nat) : pack W [] = [] := rfl

@[simp] theorem pack_append (W : Nat) (F G : List Nat) : pack W (F ++ G) = pack W F ++ pack W G :=
  List.flatMap_append

theorem pack_cons (W v : Nat) (F : List Nat) : pack W (v :: F) = bitsOfNat W v ++ pack W F := rfl

theorem pack_singleton (W v : Nat) : pack W [v] = bitsOfNat W v := by simp [pack_cons]

theorem pack_length (W : Nat) (F : List Nat) : (pack W F).length = F.length * W := by
  induction F with
  | nil => simp
  | cons v F ih => rw [pack_cons, List.length_append, bitsOfNat_length, ih, List.length_cons]; ring

/-! ### `Unpack`, a bit at a time -/

section Unpack

variable {W : Nat} {X : List Bool}

theorem fieldCount_mul_add_tailCount (W : Nat) (X : List Bool) : fieldCount W X * W + tailCount W X = X.length := by
  rw [fieldCount, tailCount, Nat.mul_comm]
  exact Nat.div_add_mod _ _

@[simp] theorem tailBits_length (W : Nat) (X : List Bool) : (tailBits W X).length = tailCount W X := by
  have := fieldCount_mul_add_tailCount W X
  rw [tailBits, List.length_drop]
  omega

@[simp] theorem unpackFields_length (W : Nat) (X : List Bool) : (unpackFields W X).length = fieldCount W X := by
  simp [unpackFields]

/-- A whole field is not changed by what comes after it. -/
theorem field_append {i : Nat} (h : i < fieldCount W X) (Y : List Bool) :
    ((X ++ Y).drop (i * W)).take W = (X.drop (i * W)).take W := by
  have hle : (i + 1) * W ≤ X.length :=
    (Nat.mul_le_mul_right W h).trans (fieldCount_mul_add_tailCount W X ▸ Nat.le_add_right _ _)
  rw [Nat.succ_mul] at hle
  rw [List.drop_append_of_le_length (by omega), List.take_append_of_le_length (by rw [List.length_drop]; omega)]

/-- The whole fields of `X` are the first fields of any continuation of `X`. -/
theorem map_field_append (X Y : List Bool) :
    (List.range (fieldCount W X)).map (fun i => wireValue (((X ++ Y).drop (i * W)).take W)) = unpackFields W X := by
  refine List.map_congr_left fun i hi => ?_
  rw [field_append (List.mem_range.1 hi)]

/-- A bit that does not complete a field joins the tail (R131). -/
theorem unpack_concat_of_incomplete (b : Bool) (h : tailCount W X + 1 < W) :
    fieldCount W (X ++ [b]) = fieldCount W X ∧ tailCount W (X ++ [b]) = tailCount W X + 1 ∧
    tailBits W (X ++ [b]) = tailBits W X ++ [b] ∧ unpackFields W (X ++ [b]) = unpackFields W X := by
  have hlen : (X ++ [b]).length = W * fieldCount W X + (tailCount W X + 1) := by
    have := fieldCount_mul_add_tailCount W X
    rw [List.length_append, List.length_singleton, ← this]
    ring
  have hcount : fieldCount W (X ++ [b]) = fieldCount W X := by
    rw [fieldCount, hlen, Nat.mul_add_div (by omega), Nat.div_eq_of_lt h, Nat.add_zero]
  refine ⟨hcount, ?_, ?_, ?_⟩
  · rw [tailCount, hlen, Nat.mul_add_mod, Nat.mod_eq_of_lt h]
  · have := fieldCount_mul_add_tailCount W X
    rw [tailBits, hcount, List.drop_append_of_le_length (by omega), tailBits]
  · rw [unpackFields, hcount, map_field_append]

/-- A bit that completes a field makes it of the tail and itself, and leaves no tail (R132). -/
theorem unpack_concat_of_complete (b : Bool) (h : tailCount W X + 1 = W) :
    fieldCount W (X ++ [b]) = fieldCount W X + 1 ∧ tailCount W (X ++ [b]) = 0 ∧ tailBits W (X ++ [b]) = [] ∧
    unpackFields W (X ++ [b]) = unpackFields W X ++ [wireValue (tailBits W X ++ [b])] := by
  have hsum := fieldCount_mul_add_tailCount W X
  have hlen : (X ++ [b]).length = W * (fieldCount W X + 1) := by
    rw [List.length_append, List.length_singleton, ← hsum, Nat.mul_succ, Nat.mul_comm]
    omega
  have hcount : fieldCount W (X ++ [b]) = fieldCount W X + 1 := by
    rw [fieldCount, hlen, Nat.mul_div_cancel_left _ (by omega)]
  have hlast : ((X ++ [b]).drop (fieldCount W X * W)).take W = tailBits W X ++ [b] := by
    rw [List.drop_append_of_le_length (by omega), ← tailBits]
    exact List.take_of_length_le (by rw [List.length_append, tailBits_length]; exact h.le)
  refine ⟨hcount, ?_, ?_, ?_⟩
  · rw [tailCount, hlen, Nat.mul_mod_right]
  · rw [tailBits, hcount, Nat.mul_comm, ← hlen, List.drop_length]
  · rw [unpackFields, hcount, List.range_succ, List.map_append, map_field_append, List.map_singleton, hlast]

/-- A field in front is the first field, and changes nothing of the rest. -/
theorem unpackFields_field_append (hW : 1 ≤ W) {x : List Bool} (hx : x.length = W) (X : List Bool) :
    unpackFields W (x ++ X) = wireValue x :: unpackFields W X := by
  have hcount : fieldCount W (x ++ X) = fieldCount W X + 1 := by
    rw [fieldCount, List.length_append, hx, Nat.add_div_left _ hW, fieldCount]
  rw [unpackFields, hcount, List.range_succ_eq_map, List.map_cons, List.map_map]
  congr 1
  · rw [Nat.zero_mul, List.drop_zero, ← hx, List.take_left]
  · refine List.map_congr_left fun i _ => ?_
    rw [Function.comp_apply, Nat.succ_mul, Nat.add_comm, ← List.drop_drop]
    congr 3
    rw [← hx, List.drop_left]

end Unpack

theorem unpackFields_pack {W : Nat} (hW : 1 ≤ W) {F : List Nat} (hF : ∀ v ∈ F, v ≤ maxCount W) :
    unpackFields W (pack W F) = F := by
  induction F with
  | nil => simp [unpackFields, fieldCount]
  | cons v F ih =>
    rw [List.forall_mem_cons] at hF
    rw [pack_cons, unpackFields_field_append hW (bitsOfNat_length W v),
      wireValue_bitsOfNat_of_lt (lt_two_pow_of_le_maxCount hF.1), ih hF.2]

theorem tailCount_pack (W : Nat) (F : List Nat) : tailCount W (pack W F) = 0 := by
  rw [tailCount, pack_length, Nat.mul_mod_left]

/-! ### `Decode` -/

@[simp] theorem decodeFrom_cons (p : Bool) (c : Nat) (F : List Nat) :
    decodeFrom p (c :: F) = List.replicate c p ++ decodeFrom (!p) F := rfl

@[simp] theorem decodeFrom_nil (p : Bool) : decodeFrom p [] = [] := rfl

theorem parity_succ (n : Nat) : parity (n + 1) = !parity n := by
  rcases Nat.mod_two_eq_zero_or_one n with h | h <;> simp [parity, Nat.add_mod, h]

@[simp] theorem parity_zero : parity 0 = false := rfl

/-- The polarity of the fields after `F` is that of `F`, changed as often as `F` has fields (R27). -/
theorem decodeFrom_append (p : Bool) (F G : List Nat) :
    decodeFrom p (F ++ G) = decodeFrom p F ++ decodeFrom (p ^^ parity F.length) G := by
  induction F generalizing p with
  | nil => simp
  | cons c F ih => simp [ih, parity_succ]

/-- One field more puts out its copies of the polarity reached (R140). -/
theorem decodeFields_concat (F : List Nat) (c : Nat) :
    decodeFields (F ++ [c]) = decodeFields F ++ List.replicate c (parity F.length) := by
  rw [decodeFields, decodeFrom_append]
  simp [decodeFields]

/-! ### The fields of a run -/

section Split

variable {W : Nat}

/-- The fields of a run: pairs `M, 0` and a last field in `[1, M]` (R112). -/
theorem split_eq (hW : 1 ≤ W) {L : Nat} (hL : 1 ≤ L) :
    ∃ q s : Nat, 1 ≤ s ∧ s ≤ maxCount W ∧ q * maxCount W + s = L ∧
      split W L = (List.replicate q [maxCount W, 0]).flatten ++ [s] := by
  have hM := maxCount_pos W hW
  have hdiv := Nat.div_add_mod (L - 1) (maxCount W)
  have hlt := Nat.mod_lt (L - 1) hM
  rw [Nat.mul_comm] at hdiv
  exact ⟨(L - 1) / maxCount W, L - (L - 1) / maxCount W * maxCount W, by omega, by omega, by omega, rfl⟩

/-- The pairs and the last field of a run are determined by its length (R113). -/
theorem split_of_pairs (hW : 1 ≤ W) {q s : Nat} (h1 : 1 ≤ s) (hM : s ≤ maxCount W) :
    split W (q * maxCount W + s) = (List.replicate q [maxCount W, 0]).flatten ++ [s] := by
  have hdiv : (q * maxCount W + s - 1) / maxCount W = q := by
    rw [Nat.add_sub_assoc h1, Nat.mul_comm, Nat.mul_add_div (maxCount_pos W hW), Nat.div_eq_of_lt (by omega),
      Nat.add_zero]
  simp only [split, hdiv, Nat.add_sub_cancel_left]

theorem split_one (hW : 1 ≤ W) : split W 1 = [1] := by
  simpa using split_of_pairs hW (q := 0) le_rfl (maxCount_pos W hW)

/-- One bit more in a run: the last field counts it, or is full and is followed by `0, 1` (R104, R105). -/
theorem split_succ (hW : 1 ≤ W) {L : Nat} (hL : 1 ≤ L) :
    ∃ S s, 1 ≤ s ∧ s ≤ maxCount W ∧ split W L = S ++ [s] ∧
      split W (L + 1) = S ++ if s < maxCount W then [s + 1] else [s, 0, 1] := by
  obtain ⟨q, s, h1, hM, hsum, hsplit⟩ := split_eq hW hL
  refine ⟨_, s, h1, hM, hsplit, ?_⟩
  split
  · rw [← hsum, Nat.add_assoc, split_of_pairs hW (by omega) (by omega)]
  · have hs : s = maxCount W := by omega
    have hL' : L + 1 = (q + 1) * maxCount W + 1 := by rw [← hsum, hs]; ring
    rw [hL', split_of_pairs hW (by omega) (maxCount_pos W hW), List.replicate_succ', hs]
    simp

/-- A pair `M, 0` and then a field of the same run: the polarity is changed and changed back (R112, R140). -/
theorem decodeFrom_pairs (p : Bool) (q M : Nat) (G : List Nat) :
    decodeFrom p ((List.replicate q [M, 0]).flatten ++ G) = List.replicate (q * M) p ++ decodeFrom p G := by
  induction q with
  | zero => simp
  | succ q ih =>
    rw [List.replicate_succ, List.flatten_cons, List.append_assoc, List.cons_append, List.cons_append, List.nil_append,
      decodeFrom_cons, decodeFrom_cons, Bool.not_not, ih, Nat.succ_mul, Nat.add_comm, List.replicate_add,
      List.replicate_zero, List.nil_append, List.append_assoc]

/-- The fields of a run decode to it and change the polarity (R113, R140). -/
theorem decodeFrom_split (hW : 1 ≤ W) {L : Nat} (hL : 1 ≤ L) (p : Bool) (G : List Nat) :
    decodeFrom p (split W L ++ G) = List.replicate L p ++ decodeFrom (!p) G := by
  obtain ⟨q, s, -, -, hsum, hsplit⟩ := split_eq hW hL
  rw [hsplit, List.append_assoc, decodeFrom_pairs, List.singleton_append, decodeFrom_cons, ← List.append_assoc,
    ← List.replicate_add, hsum]

theorem split_length (W L : Nat) : (split W L).length = 2 * ((L - 1) / maxCount W) + 1 := by
  simp [split, Nat.mul_comm]

end Split

/-! ### The runs of a sequence -/

theorem runLengthsFrom_cons (b x : Bool) (n : Nat) (xs : List Bool) :
    runLengthsFrom b n (x :: xs) = if x = b then runLengthsFrom b (n + 1) xs else n :: runLengthsFrom x 1 xs := rfl

theorem runLengthsFrom_replicate (b : Bool) (n k : Nat) :
    runLengthsFrom b n (List.replicate k b) = [n + k] := by
  induction k generalizing n with
  | zero => rfl
  | succ k ih =>
    rw [List.replicate_succ, runLengthsFrom_cons, if_pos rfl, ih, Nat.add_assoc, Nat.add_comm 1]

theorem runLengthsFrom_sum (b : Bool) (n : Nat) (xs : List Bool) : (runLengthsFrom b n xs).sum = n + xs.length := by
  induction xs generalizing b n with
  | nil => simp [runLengthsFrom]
  | cons x xs ih =>
    rw [runLengthsFrom_cons, List.length_cons]
    split
    · rw [ih]; omega
    · rw [List.sum_cons, ih]; omega

theorem runLengthsFrom_pos {b : Bool} {n : Nat} (hn : 1 ≤ n) (xs : List Bool) :
    ∀ L ∈ runLengthsFrom b n xs, 1 ≤ L := by
  induction xs generalizing b n with
  | nil => simpa [runLengthsFrom] using hn
  | cons x xs ih =>
    rw [runLengthsFrom_cons]
    split
    · exact ih (by omega)
    · exact List.forall_mem_cons.2 ⟨hn, ih le_rfl⟩

/-- One bit more joins the last run when it is that run's bit, else it starts a run. -/
theorem runLengthsFrom_concat (b y : Bool) (n : Nat) (xs : List Bool) :
    ∃ R L, runLengthsFrom b n xs = R ++ [L] ∧
      runLengthsFrom b n (xs ++ [y]) = R ++ if (b :: xs).getLast? = some y then [L + 1] else [L, 1] := by
  induction xs generalizing b n with
  | nil =>
    refine ⟨[], n, rfl, ?_⟩
    simp only [List.nil_append, List.getLast?_singleton, Option.some.injEq, runLengthsFrom_cons, runLengthsFrom,
      eq_comm (a := b)]
  | cons x xs ih =>
    rw [List.cons_append, runLengthsFrom_cons, runLengthsFrom_cons, List.getLast?_cons_cons]
    split
    · rename_i hx
      rw [hx]
      exact ih b (n + 1)
    · obtain ⟨R, L, hR, hR'⟩ := ih x 1
      exact ⟨n :: R, L, by rw [hR, List.cons_append], by rw [hR', List.cons_append]⟩

/-! ### `Encode` -/

section Encode

variable {W : Nat}

theorem encodeFields_nil (W : Nat) : encodeFields W [] = [] := rfl

theorem lead_cons_append (x : Bool) (xs ys : List Bool) : lead (x :: xs ++ ys) = lead (x :: xs) := by
  cases x <;> rfl

theorem encodeFields_cons (x : Bool) (xs : List Bool) :
    encodeFields W (x :: xs) = lead (x :: xs) ++ (runLengthsFrom x 1 xs).flatMap (split W) := rfl

/-- The first bit: a leading field 0 when it is 1 (R103). -/
theorem encodeFields_singleton (hW : 1 ≤ W) (b : Bool) : encodeFields W [b] = (if b then [0] else []) ++ [1] := by
  cases b <;> simp [encodeFields_cons, runLengthsFrom, lead, split_one hW]

/-- One bit more: the field of the run in progress counts it, or overflows, or is left for a new run (R104 to R106). -/
theorem encodeFields_concat (hW : 1 ≤ W) {B : List Bool} {x : Bool} (hx : B.getLast? = some x) (y : Bool) :
    ∃ F c, 1 ≤ c ∧ c ≤ maxCount W ∧ encodeFields W B = F ++ [c] ∧
      encodeFields W (B ++ [y]) =
        F ++ if x = y then (if c < maxCount W then [c + 1] else [c, 0, 1]) else [c, 1] := by
  cases B with
  | nil => simp at hx
  | cons z zs =>
    obtain ⟨R, L, hR, hR'⟩ := runLengthsFrom_concat z y 1 zs
    have hL : 1 ≤ L := runLengthsFrom_pos (b := z) le_rfl zs L (by simp [hR])
    obtain ⟨S, c, h1, hM, hS, hS'⟩ := split_succ hW hL
    refine ⟨lead (z :: zs) ++ R.flatMap (split W) ++ S, c, h1, hM, ?_, ?_⟩
    · rw [encodeFields_cons, hR, List.flatMap_append, List.flatMap_singleton, hS]
      simp
    · rw [List.cons_append, encodeFields_cons, ← List.cons_append, lead_cons_append, hR', hx, List.flatMap_append]
      simp only [Option.some.injEq]
      split
      · rw [List.flatMap_singleton, hS']
        simp
      · simp [hS, split_one hW]

/-- A sequence that is not empty ends in a field in `[1, M]` (R115). -/
theorem encodeFields_last (hW : 1 ≤ W) {B : List Bool} (hB : B ≠ []) :
    ∃ F c, 1 ≤ c ∧ c ≤ maxCount W ∧ encodeFields W B = F ++ [c] := by
  obtain ⟨F, c, h1, hM, hE, -⟩ := encodeFields_concat hW (List.getLast?_eq_some_getLast hB) false
  exact ⟨F, c, h1, hM, hE⟩

/-- Every field fits `W` bits (R113). -/
theorem encodeFields_le (hW : 1 ≤ W) (B : List Bool) : ∀ v ∈ encodeFields W B, v ≤ maxCount W := by
  have hM := maxCount_pos W hW
  induction B using List.reverseRecOn with
  | nil => simp [encodeFields_nil]
  | append_singleton B y ih =>
    rcases List.eq_nil_or_concat B with rfl | ⟨B', x, rfl⟩
    · rw [List.nil_append, encodeFields_singleton hW]
      cases y <;> simp [hM]
    · obtain ⟨F, c, _, hc, hE, hE'⟩ := encodeFields_concat hW (List.getLast?_concat (l := B') (a := x)) y
      rw [List.concat_eq_append] at ih ⊢
      rw [hE] at ih
      rw [hE']
      rw [List.forall_mem_append] at ih ⊢
      refine ⟨ih.1, ?_⟩
      split
      · split
        · exact List.forall_mem_singleton.2 ‹c < maxCount W›
        · simp [hM, hc]
      · simp [hM, hc]

/-- The fields of the runs, decoded at the first run's bit, are the sequence again. -/
theorem decodeFrom_runs (hW : 1 ≤ W) {n : Nat} (hn : 1 ≤ n) (b : Bool) (xs : List Bool) :
    decodeFrom b ((runLengthsFrom b n xs).flatMap (split W)) = List.replicate n b ++ xs := by
  induction xs generalizing b n with
  | nil =>
    have h := decodeFrom_split hW hn b []
    simpa [runLengthsFrom] using h
  | cons x xs ih =>
    rw [runLengthsFrom_cons]
    split
    · rename_i hx
      rw [ih (by omega), hx, List.replicate_succ']
      simp
    · rename_i hx
      have hx' : (!b) = x := by cases b <;> cases x <;> simp_all
      rw [List.flatMap_cons, decodeFrom_split hW hn, hx', ih le_rfl]
      rfl

/-- `Decode(Encode(B)) = B`: the leading field 0 sets the polarity of the first run (R114, R146). -/
theorem decodeFields_encodeFields (hW : 1 ≤ W) (B : List Bool) : decodeFields (encodeFields W B) = B := by
  cases B with
  | nil => rfl
  | cons x xs =>
    have h := decodeFrom_runs hW le_rfl x xs
    cases x with
    | false => simpa [encodeFields_cons, decodeFields, lead] using h
    | true => simpa [encodeFields_cons, decodeFields, lead] using h

/-- The field of the run in progress counts ones exactly when an odd number of fields comes before it (R116). -/
theorem parity_of_encodeFields (hW : 1 ≤ W) {B : List Bool} {x : Bool} {F : List Nat} {c : Nat}
    (hx : B.getLast? = some x) (hE : encodeFields W B = F ++ [c]) (hc : 1 ≤ c) : parity F.length = x := by
  have hB := decodeFields_encodeFields hW B
  rw [hE, decodeFields_concat] at hB
  rw [← hB, List.getLast?_append, List.getLast?_replicate, if_neg (by omega)] at hx
  simpa using hx

/-! ### The number of fields -/

/-- Runs of at least one bit have at most as many fields as bits when `M >= 2` (R117). -/
theorem split_length_le_of_two (hM : 2 ≤ maxCount W) {L : Nat} (hL : 1 ≤ L) : (split W L).length ≤ L := by
  have h := Nat.div_mul_le_self (L - 1) (maxCount W)
  have h2 : (L - 1) / maxCount W * 2 ≤ (L - 1) / maxCount W * maxCount W := Nat.mul_le_mul_left _ hM
  rw [split_length]
  omega

theorem split_length_succ_le {L : Nat} (hL : 1 ≤ L) : (split W L).length + 1 ≤ 2 * L := by
  have h := Nat.div_le_self (L - 1) (maxCount W)
  rw [split_length]
  omega

theorem lead_length_le (B : List Bool) : (lead B).length ≤ 1 := by
  rcases B with _ | ⟨_ | _, _⟩ <;> simp [lead]

theorem flatMap_split_length_le_of_two (hM : 2 ≤ maxCount W) {R : List Nat} (hR : ∀ L ∈ R, 1 ≤ L) :
    (R.flatMap (split W)).length ≤ R.sum := by
  induction R with
  | nil => simp
  | cons L R ih =>
    rw [List.forall_mem_cons] at hR
    have hL := split_length_le_of_two hM hR.1
    have hR' := ih hR.2
    rw [List.flatMap_cons, List.length_append, List.sum_cons]
    omega

theorem flatMap_split_length_add_le {R : List Nat} (hR : ∀ L ∈ R, 1 ≤ L) :
    (R.flatMap (split W)).length + R.length ≤ 2 * R.sum := by
  induction R with
  | nil => simp
  | cons L R ih =>
    rw [List.forall_mem_cons] at hR
    have hL := split_length_succ_le (W := W) hR.1
    have hR' := ih hR.2
    rw [List.flatMap_cons, List.length_append, List.sum_cons, List.length_cons]
    omega

end Encode

/-! ### The obligations -/

/-- Settles O52: the runs decode to the sequence, after the leading field. -/
theorem roundTrip : Obligations.RoundTrip := fun _ B hW => decodeFields_encodeFields hW B

/-- Settles O53: a field at a time. -/
theorem unpackOfPack : Obligations.UnpackOfPack := fun W F hW hF =>
  ⟨unpackFields_pack hW hF, tailCount_pack W F, pack_length W F⟩

/-- Settles O56: one run has one length, split into pairs and a last field. -/
theorem fieldsOfOneRun : Obligations.FieldsOfOneRun := by
  intro W L b hW hL
  obtain ⟨q, s, h1, hM, hsum, hsplit⟩ := split_eq hW hL
  refine ⟨q, s, h1, hM, hsum, ?_⟩
  obtain ⟨k, rfl⟩ := Nat.exists_eq_add_of_le hL
  rw [List.append_assoc, ← hsplit, Nat.add_comm 1 k, List.replicate_succ, encodeFields_cons, runLengthsFrom_replicate,
    List.flatMap_singleton, Nat.add_comm 1 k]
  cases b <;> rfl

/-- Settles O57: the fields fit, and the last of them counts a run of at least one bit. -/
theorem encodedFieldsInRange : Obligations.EncodedFieldsInRange := by
  intro W B hW
  refine ⟨encodeFields_le hW B, ?_⟩
  by_cases hB : B = []
  · simp [hB, encodeFields_nil]
  · obtain ⟨F, c, h1, -, hE⟩ := encodeFields_last hW hB
    rw [hE, List.getLast?_concat, Ne, Option.some.injEq]
    omega

/-- Settles O59: the bounds of one run, added up, and at most one leading field. -/
theorem sizeOfTheOutput : Obligations.SizeOfTheOutput := by
  intro W B hW hB
  obtain ⟨x, xs, rfl⟩ := List.exists_cons_of_ne_nil hB
  have hlead := lead_length_le (x :: xs)
  have hsum := runLengthsFrom_sum x 1 xs
  have hpos := runLengthsFrom_pos (b := x) le_rfl xs
  rw [encodeFields_cons, List.length_append, List.length_cons]
  refine ⟨fun hM => ?_, fun _ => ?_⟩
  · have h := flatMap_split_length_le_of_two hM hpos
    omega
  · have h := flatMap_split_length_add_le (W := W) hpos
    have hone : 1 ≤ (runLengthsFrom x 1 xs).length := by
      obtain ⟨R, L, hR, -⟩ := runLengthsFrom_concat x x 1 xs
      simp [hR]
    omega

end Sys2Proof.Machine
end

section
/-! The relation between registers and traces (R41, R114, R143): it holds at reset, each unit's part of an edge keeps
it, and what it says of a unit's output (R9, R61, R116). First tokens that carry bits, then the encoder, the decoder,
the whole edge, and a run from reset. -/

namespace Sys2Proof.Machine

/-! ### Tokens that carry bits -/

@[simp] theorem inToks_nil : inToks [] = [] := rfl
@[simp] theorem inToks_append (X Y : List Bool) : inToks (X ++ Y) = inToks X ++ inToks Y := List.map_append
@[simp] theorem inToks_singleton (b : Bool) : inToks [b] = [.bit b] := rfl
@[simp] theorem inToks_length (X : List Bool) : (inToks X).length = X.length := List.length_map _

@[simp] theorem outBits_nil : outBits [] = [] := rfl
@[simp] theorem outBits_append (X Y : List Bool) : outBits (X ++ Y) = outBits X ++ outBits Y := List.map_append
@[simp] theorem outBits_replicate (n : Nat) (b : Bool) : outBits (List.replicate n b) = List.replicate n (.bit b) :=
  List.map_replicate
@[simp] theorem outBits_length (X : List Bool) : (outBits X).length = X.length := List.length_map _

@[simp] theorem fin_notMem_inToks (X : List Bool) : InTok.fin ∉ inToks X := by simp [inToks]

@[simp] theorem inBits_inToks (X : List Bool) : inBits (inToks X) = X := by
  induction X with
  | nil => rfl
  | cons b X ih => exact congrArg (b :: ·) ih

@[simp] theorem inBits_inToks_fin (X : List Bool) : inBits (inToks X ++ [.fin]) = X := by
  rw [inBits, List.filterMap_append, ← inBits, inBits_inToks]
  exact List.append_nil X

/-! ### The encoder -/

section Enc

variable {s : State}

theorem encTraced_of_atRunStart (h : s.enc.est = .atRunStart) :
    EncTraced s ↔ s.trEI = [] ∧ s.trEO = [] ∧ s.enc.eoq = [] := by
  simp only [EncTraced, h]

theorem encTraced_of_inRun (h : s.enc.est = .inRun) :
    EncTraced s ↔ ∃ B F, s.trEI = inToks B ∧ B.getLast? = some s.enc.ebit ∧
      encodeFields s.W B = F ++ [s.enc.ecnt.toNat] ∧ s.trEO ++ s.enc.eoq = outBits (pack s.W F) := by
  simp only [EncTraced, h]

theorem encTraced_of_done (h : s.enc.est = .done) :
    EncTraced s ↔ ∃ B, s.trEI = inToks B ++ [.fin] ∧
      s.trEO ++ s.enc.eoq = outBits (pack s.W (encodeFields s.W B)) ++ [.close false] := by
  simp only [EncTraced, h]

/-- A bit in `IN_RUN` turns the field of the run in progress into the fields it emits and the new field in progress, as
`encodeFields_concat` says (R104 to R106). -/
theorem encBit_fields {W : Nat} (hW : 1 ≤ W) {e : Enc W} (hs : e.est = .inRun) (hq : e.eoq = []) (b : Bool) :
    ∃ G v, encBit b e = { est := .inRun, ebit := b, ecnt := v, eoq := outBits (pack W G) } ∧
      (if e.ebit = b then (if e.ecnt.toNat < maxCount W then [e.ecnt.toNat + 1] else [e.ecnt.toNat, 0, 1])
        else [e.ecnt.toNat, 1]) = G ++ [v.toNat] := by
  have h1 := one_toNat hW
  rcases encBit_cases b e with ⟨hs', _⟩ | ⟨_, hb, hn, h⟩ | ⟨_, hb, hn, h⟩ | ⟨_, hb, h⟩ | ⟨hs', _⟩
  · simp [hs] at hs'
  · refine ⟨[], e.ecnt + 1#W, ?_, ?_⟩
    · rw [h, encContinue_eq, hs, ← hb, hq]
      rfl
    · rw [if_pos hb.symm, if_pos hn, ecnt_add_one_toNat hn, List.nil_append]
  · refine ⟨[maxCount W, 0], 1#W, ?_, ?_⟩
    · have hM : fieldToks (fieldMax W) = outBits (bitsOfNat W (maxCount W)) := by
        rw [fieldToks_eq_outBits, fieldMax_toNat]
      have h0 : fieldToks 0#W = outBits (bitsOfNat W 0) := fieldToks_eq_outBits 0#W
      rw [h, encOverflow_of_empty hq, ← fieldToks_fieldMax, ← fieldToks_zero, hM, h0, pack_cons, pack_singleton,
        outBits_append, hs, hb]
    · rw [if_pos hb.symm, if_neg (by omega), h1, hn]
      rfl
  · refine ⟨[e.ecnt.toNat], 1#W, ?_, ?_⟩
    · rw [h, encChange_of_empty hq, pack_singleton, hs]
    · rw [if_neg (Ne.symm hb), h1]
      rfl
  · simp [hs] at hs'

/-- A bit taken by a ready encoder (R103 to R106). -/
theorem encBit_keeps_encTraced (hW : 1 ≤ s.W) (hs : EncTraced s) (ha : encAccepts s.enc = true) (b : Bool) :
    EncTraced { s with enc := encBit b s.enc, trEI := s.trEI ++ [.bit b] } := by
  obtain ⟨hd, hq⟩ := (encAccepts_iff s.enc).1 ha
  cases hest : s.enc.est with
  | atRunStart =>
    obtain ⟨hEI, hEO, -⟩ := (encTraced_of_atRunStart hest).1 hs
    have hrun : encBit b s.enc = _ := (encBit_of_atRunStart hest).trans (encFirst_of_empty hq)
    have h0 : fieldToks 0#s.W = outBits (bitsOfNat s.W 0) := fieldToks_eq_outBits 0#s.W
    rw [encTraced_of_inRun (by rw [hrun])]
    refine ⟨[b], if b then [0] else [], by simp [hEI], by rw [hrun]; rfl, ?_, ?_⟩
    · rw [encodeFields_singleton hW, hrun, one_toNat hW]
    · rw [hrun, hEO, ← fieldToks_zero, h0]
      cases b
      · rfl
      · simp [pack_singleton]
  | inRun =>
    obtain ⟨B, F, hEI, hlast, hE, hout⟩ := (encTraced_of_inRun hest).1 hs
    obtain ⟨F', c, -, -, hE', hcat⟩ := encodeFields_concat hW hlast b
    obtain ⟨rfl, rfl⟩ : F = F' ∧ s.enc.ecnt.toNat = c := by simpa using hE.symm.trans hE'
    obtain ⟨G, v, hbit, hG⟩ := encBit_fields hW hest hq b
    rw [encTraced_of_inRun (by rw [hbit])]
    rw [hq, List.append_nil] at hout
    refine ⟨B ++ [b], F ++ G, by simp [hEI], by rw [hbit]; simp, ?_, ?_⟩
    · rw [hcat, hG, hbit, List.append_assoc]
    · rw [hbit, hout, pack_append, outBits_append]
  | done => exact absurd hest hd

/-- The end marker taken by a ready encoder (R107, R108). -/
theorem encEnd_keeps_encTraced (hs : EncTraced s) (ha : encAccepts s.enc = true) :
    EncTraced { s with enc := encEnd s.enc, trEI := s.trEI ++ [.fin] } := by
  obtain ⟨hd, hq⟩ := (encAccepts_iff s.enc).1 ha
  cases hest : s.enc.est with
  | atRunStart =>
    obtain ⟨hEI, hEO, -⟩ := (encTraced_of_atRunStart hest).1 hs
    have hend := encEnd_of_atRunStart hest hq
    rw [encTraced_of_done (by rw [hend])]
    exact ⟨[], by simp [hEI], by simp [hend, hEO, encodeFields_nil]⟩
  | inRun =>
    obtain ⟨B, F, hEI, hlast, hE, hout⟩ := (encTraced_of_inRun hest).1 hs
    have hend := encEnd_of_inRun hest hq
    rw [hq, List.append_nil] at hout
    rw [encTraced_of_done (by rw [hend])]
    exact ⟨B, by rw [hEI], by simp [hend, hout, hE, pack_singleton]⟩
  | done => exact absurd hest hd

/-- The transfer on `EO` moves a token from the queue to the trace (R110). -/
theorem pop_keeps_encTraced {t : OutTok} {q : List OutTok} (hs : EncTraced s) (hq : s.enc.eoq = t :: q) :
    EncTraced { s with enc := { s.enc with eoq := q }, trEO := s.trEO ++ [t] } := by
  have hout : (s.trEO ++ [t]) ++ q = s.trEO ++ s.enc.eoq := by simp [hq]
  cases hest : s.enc.est with
  | atRunStart =>
    obtain ⟨-, -, hq'⟩ := (encTraced_of_atRunStart hest).1 hs
    simp [hq] at hq'
  | inRun =>
    obtain ⟨B, F, hEI, hlast, hE, hO⟩ := (encTraced_of_inRun hest).1 hs
    rw [encTraced_of_inRun (by exact hest)]
    exact ⟨B, F, hEI, hlast, hE, hout.trans hO⟩
  | done =>
    obtain ⟨B, hEI, hO⟩ := (encTraced_of_done hest).1 hs
    rw [encTraced_of_done (by exact hest)]
    exact ⟨B, hEI, hout.trans hO⟩

theorem encEdge_keeps_encTraced {p : PortIn} {u : State} (hW : 1 ≤ s.W) (hs : EncTraced s)
    (h : encEdge p s = .next u) : EncTraced u := by
  rcases encEdge_cases p s with ⟨_, h'⟩ | ⟨_, _, ha, h'⟩ | ⟨_, _, _, t, q, hq, h'⟩ | ⟨_, _, _, h'⟩
  · cases h'.symm.trans h
    exact ⟨rfl, rfl, rfl⟩
  · cases h'.symm.trans h
    cases hx : inTokOfCode (eiCode p) with
    | bit b => exact encBit_keeps_encTraced hW hs ha b
    | fin => exact encEnd_keeps_encTraced hs ha
  · cases h'.symm.trans h
    exact pop_keeps_encTraced hs hq
  · cases h'.symm.trans h
    exact hs

/-- What the encoder has put out and queued, as a function of the width and of what it took (R9). -/
def encOutput (W : Nat) (tr : List InTok) : List OutTok :=
  if .fin ∈ tr then outBits (pack W (encodeFields W (inBits tr))) ++ [.close false]
  else outBits (pack W (encodeFields W (inBits tr)).dropLast)

theorem encOutput_of_fin (W : Nat) (B : List Bool) :
    encOutput W (inToks B ++ [.fin]) = outBits (pack W (encodeFields W B)) ++ [.close false] := by
  rw [encOutput, if_pos (by simp), inBits_inToks_fin]

theorem encTraced_output (h : EncTraced s) : s.trEO ++ s.enc.eoq = encOutput s.W s.trEI := by
  cases hest : s.enc.est with
  | atRunStart =>
    obtain ⟨hEI, hEO, hq⟩ := (encTraced_of_atRunStart hest).1 h
    rw [hEI, hEO, hq]
    rfl
  | inRun =>
    obtain ⟨B, F, hEI, -, hE, hout⟩ := (encTraced_of_inRun hest).1 h
    rw [hEI, hout, encOutput, if_neg (fin_notMem_inToks B), inBits_inToks, hE, List.dropLast_concat]
  | done =>
    obtain ⟨B, hEI, hout⟩ := (encTraced_of_done hest).1 h
    rw [hEI, hout, encOutput_of_fin]

theorem encTraced_done_of_fin (h : EncTraced s) (hfin : .fin ∈ s.trEI) : s.enc.est = .done := by
  cases hest : s.enc.est with
  | atRunStart =>
    obtain ⟨hEI, -, -⟩ := (encTraced_of_atRunStart hest).1 h
    simp [hEI] at hfin
  | inRun =>
    obtain ⟨B, F, hEI, -⟩ := (encTraced_of_inRun hest).1 h
    simp [hEI] at hfin
  | done => rfl

end Enc

/-! ### The decoder -/

section Dec

variable {s : State}

theorem decTraced_of_atRunStart (h : s.dec.dst = .atRunStart) :
    DecTraced s ↔ ∃ X, s.trDI = inToks X ∧ Unpacker s X ∧ s.dec.dpol = parity (fieldCount s.W X) ∧
      s.trDO = outBits (decodeFields (unpackFields s.W X)) := by
  simp only [DecTraced, h]

theorem decTraced_of_inRun (h : s.dec.dst = .inRun) :
    DecTraced s ↔ ∃ X, s.trDI = inToks X ∧ Unpacker s X ∧ (!s.dec.dpol) = parity (fieldCount s.W X) ∧
      s.trDO ++ List.replicate s.dec.drem.toNat (OutTok.bit s.dec.dpol)
        = outBits (decodeFields (unpackFields s.W X)) := by
  simp only [DecTraced, decPending, h]

theorem decTraced_of_done (h : s.dec.dst = .done) :
    DecTraced s ↔ ∃ X, s.trDI = inToks X ++ [.fin] ∧ Unpacker s X ∧ s.dec.dpol = parity (fieldCount s.W X) ∧
      s.dec.derr = decide (tailCount s.W X ≠ 0) ∧
      s.trDO ++ (if s.dec.dcl then [OutTok.close s.dec.derr] else [])
        = outBits (decodeFields (unpackFields s.W X)) ++ [.close s.dec.derr] := by
  simp only [DecTraced, decPending, h]

/-- The low bits of the shifted unpacker are the low bits before and the new bit (R131). -/
theorem shiftIn_mod {W n : Nat} (v : CountField W) (b : Bool) (hn : n + 1 ≤ W) :
    (shiftIn v b).toNat % 2 ^ (n + 1) = 2 * (v.toNat % 2 ^ n) + b.toNat := by
  have hb := Bool.toNat_lt b
  have hdiv : (2 * v.toNat + b.toNat) / 2 = v.toNat := by omega
  rw [shiftIn_toNat, Nat.mod_mod_of_dvd _ (Nat.pow_dvd_pow 2 hn), Nat.pow_succ', Nat.mod_mul, hdiv]
  omega

/-- A bit of a field not yet complete, in the unpacker and in the trace (R131). -/
theorem unpacker_shiftBit {X : List Bool} (h : Unpacker s X) (hn : s.dec.dn.toNat < s.W - 1) (b : Bool) (x : InTok) :
    Unpacker (tookDI x s (shiftBit b s.dec)) (X ++ [b]) := by
  obtain ⟨hdn, hdsh⟩ := h
  obtain ⟨-, hcount, htail, -⟩ := unpack_concat_of_incomplete b (W := s.W) (X := X) (by omega)
  have hdn' : (bitCount s.W (s.dec.dn.toNat + 1)).toNat = s.dec.dn.toNat + 1 := bitCount_toNat (by omega)
  refine ⟨?_, ?_⟩
  · simp only [tookDI_dec, tookDI_W, shiftBit_dn, hdn', hcount]
    rw [hdn]
  · simp only [tookDI_dec, tookDI_W, shiftBit_dn, shiftBit_dsh, hdn', htail, wireValue_concat]
    rw [shiftIn_mod _ _ (by omega), hdsh]

/-- The field completed by `b` has the tail and `b` as its wire bits (R132). -/
theorem completed_value {X : List Bool} (hW : 1 ≤ s.W) (h : Unpacker s X) (hn : s.dec.dn.toNat = s.W - 1) (b : Bool) :
    (shiftIn s.dec.dsh b).toNat = wireValue (tailBits s.W X ++ [b]) := by
  obtain ⟨-, hdsh⟩ := h
  have hmod := shiftIn_mod s.dec.dsh b (n := s.dec.dn.toNat) (by omega)
  rwa [hdsh, hn, Nat.sub_add_cancel hW, Nat.mod_eq_of_lt (shiftIn s.dec.dsh b).isLt, ← wireValue_concat] at hmod

/-- A wire bit of a field not yet complete (R131). -/
theorem shiftBit_keeps_decTraced (hs : DecTraced s) (hd : s.dec.dst = .atRunStart) (hn : s.dec.dn.toNat < s.W - 1)
    (b : Bool) : DecTraced (tookDI (.bit b) s (shiftBit b s.dec)) := by
  obtain ⟨X, hDI, hU, hpol, hDO⟩ := (decTraced_of_atRunStart hd).1 hs
  have hdn : s.dec.dn.toNat = tailCount s.W X := hU.1
  obtain ⟨hcount, -, -, hfields⟩ := unpack_concat_of_incomplete b (W := s.W) (X := X) (by omega)
  rw [decTraced_of_atRunStart (by exact hd)]
  refine ⟨X ++ [b], by simp [hDI], unpacker_shiftBit hU hn b _, ?_, ?_⟩
  · simpa [hcount] using hpol
  · simpa [hfields] using hDO

/-- A wire bit that completes a field, and the field operation it runs (R132 to R134). -/
theorem completeField_keeps_decTraced (hW : 1 ≤ s.W) (hs : DecTraced s) (hd : s.dec.dst = .atRunStart)
    (hn : s.dec.dn.toNat = s.W - 1) (b : Bool) : DecTraced (tookDI (.bit b) s (completeField b s.dec)) := by
  obtain ⟨X, hDI, hU, hpol, hDO⟩ := (decTraced_of_atRunStart hd).1 hs
  have hdn : s.dec.dn.toNat = tailCount s.W X := hU.1
  obtain ⟨hcount, htail, hbits, hfields⟩ := unpack_concat_of_complete b (W := s.W) (X := X) (by omega)
  rw [← completed_value hW hU hn b] at hfields
  have hcat := decodeFields_concat (unpackFields s.W X) (shiftIn s.dec.dsh b).toNat
  rw [unpackFields_length, ← hpol, ← hfields] at hcat
  rcases fieldOp_cases (shiftIn s.dec.dsh b) (unpacked b s.dec) with ⟨hc, h⟩ | ⟨hc, h⟩
  · rw [completeField, h, decTraced_of_atRunStart (by exact hd)]
    refine ⟨X ++ [b], by simp [hDI], ⟨by simp [htail], by simp [hbits, Nat.mod_one]⟩, ?_, ?_⟩
    · simp [hcount, parity_succ, hpol]
    · simp [hcat, hc, hDO]
  · rw [completeField, h, decTraced_of_inRun rfl]
    refine ⟨X ++ [b], by simp [hDI], ⟨by simp [htail], by simp [hbits, Nat.mod_one]⟩, ?_, ?_⟩
    · simp [hcount, parity_succ, hpol]
    · simp [hcat, hDO]

/-- A wire bit taken by a waiting decoder (R131 to R134). -/
theorem decBit_keeps_decTraced {t : State} {b : Bool} (hW : 1 ≤ s.W) (hs : DecTraced s)
    (hd : s.dec.dst = .atRunStart) (h : decBit b s = .next t) : DecTraced t := by
  rcases decBit_next h with ⟨_, hn, rfl⟩ | ⟨_, hn, rfl⟩ | ⟨hd', _⟩
  · exact shiftBit_keeps_decTraced hs hd hn b
  · exact completeField_keeps_decTraced hW hs hd hn b
  · exact absurd hd hd'

/-- The end marker taken by a waiting decoder (R136, R137). -/
theorem execDend_keeps_decTraced {t : State} (hr : DecRegs s) (hs : DecTraced s) (hd : s.dec.dst = .atRunStart)
    (h : execDend s = .next t) : DecTraced t := by
  obtain ⟨X, hDI, hU, hpol, hDO⟩ := (decTraced_of_atRunStart hd).1 hs
  obtain ⟨-, -, herr⟩ := decOk_atRunStart ((decRegs_iff s).1 hr) hd
  have hdn : s.dec.dn.toNat = tailCount s.W X := hU.1
  rcases execDend_cases s with ⟨_, hn, h'⟩ | ⟨_, hn, h'⟩ | ⟨hd', _⟩
  · cases h'.symm.trans h
    rw [decTraced_of_done rfl]
    refine ⟨X, by simp [hDI], hU, hpol, ?_, by simp [hDO]⟩
    simp [herr, ← hdn, hn]
  · cases h'.symm.trans h
    rw [decTraced_of_done rfl]
    refine ⟨X, by simp [hDI], hU, hpol, ?_, by simp [hDO]⟩
    simp [← hdn, hn]
  · exact absurd hd hd'

/-- A copy of the run moves to the trace; after the last one the polarity changes (R135). -/
theorem tookCopy_keeps_decTraced (hs : DecTraced s) (hd : s.dec.dst = .inRun) (hn : s.dec.drem.toNat ≠ 0) :
    DecTraced { s with dec := tookCopy s.dec, trDO := s.trDO ++ [OutTok.bit s.dec.dpol] } := by
  obtain ⟨X, hDI, hU, hpol, hDO⟩ := (decTraced_of_inRun hd).1 hs
  by_cases h1 : s.dec.drem.toNat = 1
  · have htook : tookCopy s.dec = { s.dec with drem := 0, dpol := !s.dec.dpol, dst := .atRunStart } := if_pos h1
    rw [htook, decTraced_of_atRunStart rfl]
    rw [h1] at hDO
    exact ⟨X, hDI, hU, hpol, hDO⟩
  · have htook : tookCopy s.dec = { s.dec with drem := BitVec.ofNat s.W (s.dec.drem.toNat - 1) } := if_neg h1
    rw [htook, decTraced_of_inRun (by exact hd)]
    refine ⟨X, hDI, hU, hpol, ?_⟩
    obtain ⟨k, hk⟩ := Nat.exists_eq_succ_of_ne_zero hn
    rw [drem_pred_toNat, List.append_assoc, ← hDO, hk]
    rfl

/-- `CLOSE` moves to the trace (R138). -/
theorem doClose_keeps_decTraced (hr : DecRegs s) (hs : DecTraced s) (hc : s.dec.dcl = true) :
    DecTraced (doClose s) := by
  obtain ⟨-, -, -, hcl, -⟩ := (decRegs_iff s).1 hr
  have hd := hcl hc
  obtain ⟨X, hDI, hU, hpol, herr, hDO⟩ := (decTraced_of_done hd).1 hs
  rw [decTraced_of_done (by exact hd)]
  refine ⟨X, hDI, hU, hpol, herr, ?_⟩
  simpa [hc] using hDO

theorem decTraced_resetDec (s : State) : DecTraced (resetDec s) := by
  rw [decTraced_of_atRunStart rfl]
  refine ⟨[], rfl, ⟨?_, ?_⟩, ?_, ?_⟩
  · simp [tailCount, Dec.reset]
  · simp [tailBits, Dec.reset]
  · simp [fieldCount, Dec.reset]
  · simp [unpackFields, fieldCount, decodeFields]

theorem decEdge_keeps_decTraced {p : PortIn} {t : State} (hW : 1 ≤ s.W) (hr : DecRegs s) (hs : DecTraced s)
    (h : decEdge p s = .next t) : DecTraced t := by
  rcases decEdge_next h with ⟨_, rfl⟩ | ⟨_, _, hd, hx⟩ | ⟨_, _, hd, hn, rfl⟩ | ⟨_, _, _, _, hc, rfl⟩ | ⟨_, _, _, rfl⟩
  · exact decTraced_resetDec s
  · cases hxt : inTokOfCode (diCode p) with
    | bit b =>
      rw [hxt, exec_decBit] at hx
      exact decBit_keeps_decTraced hW hs hd hx
    | fin =>
      rw [hxt, exec_decFin] at hx
      exact execDend_keeps_decTraced hr hs hd hx
  · exact tookCopy_keeps_decTraced hs hd hn
  · exact doClose_keeps_decTraced hr hs hc
  · exact hs

/-- What the decoder has put out and pending, as a function of the width and of what it took (R9). -/
def decOutput (W : Nat) (tr : List InTok) : List OutTok :=
  outBits (decodeFields (unpackFields W (inBits tr))) ++
    if .fin ∈ tr then [.close (decide (tailCount W (inBits tr) ≠ 0))] else []

theorem decOutput_of_fin (W : Nat) (X : List Bool) :
    decOutput W (inToks X ++ [.fin]) =
      outBits (decodeFields (unpackFields W X)) ++ [.close (decide (tailCount W X ≠ 0))] := by
  rw [decOutput, if_pos (by simp), inBits_inToks_fin]

theorem decTraced_output (h : DecTraced s) : s.trDO ++ decPending s.dec = decOutput s.W s.trDI := by
  cases hd : s.dec.dst with
  | atRunStart =>
    obtain ⟨X, hDI, -, -, hDO⟩ := (decTraced_of_atRunStart hd).1 h
    simp [decPending, decOutput, hd, hDI, hDO]
  | inRun =>
    obtain ⟨X, hDI, -, -, hDO⟩ := (decTraced_of_inRun hd).1 h
    simp [decPending, decOutput, hd, hDI, hDO]
  | done =>
    obtain ⟨X, hDI, -, -, herr, hDO⟩ := (decTraced_of_done hd).1 h
    rw [hDI, decOutput_of_fin, ← herr, ← hDO, decPending, hd]

theorem decTraced_done_of_fin (h : DecTraced s) (hfin : .fin ∈ s.trDI) : s.dec.dst = .done := by
  cases hd : s.dec.dst with
  | atRunStart =>
    obtain ⟨X, hDI, -⟩ := (decTraced_of_atRunStart hd).1 h
    simp [hDI] at hfin
  | inRun =>
    obtain ⟨X, hDI, -⟩ := (decTraced_of_inRun hd).1 h
    simp [hDI] at hfin
  | done => rfl

/-- After `END`, `derr` says whether a tail was left (R136, R137). -/
theorem decTraced_derr (h : DecTraced s) (hfin : .fin ∈ s.trDI) :
    s.dec.derr = decide (tailCount s.W (inBits s.trDI) ≠ 0) := by
  obtain ⟨X, hDI, -, -, herr, -⟩ := (decTraced_of_done (decTraced_done_of_fin h hfin)).1 h
  rw [hDI, inBits_inToks_fin, herr]

end Dec

/-! ### One edge, and a run from reset -/

theorem encEdge_keeps_decTraced {p : PortIn} {s u : State} (hs : DecTraced s) (h : encEdge p s = .next u) :
    DecTraced u := by
  obtain ⟨_, _, _, rfl⟩ := encEdge_frame h
  exact hs

theorem decEdge_keeps_encTraced {p : PortIn} {s t : State} (hs : EncTraced s) (h : decEdge p s = .next t) :
    EncTraced t := by
  obtain ⟨_, _, _, rfl⟩ := decEdge_frame h
  exact hs

theorem clockEdge_keeps_codecInv {p : PortIn} {s t : State} (hs : CodecInv s) (h : clockEdge p s = .next t) :
    CodecInv t := by
  obtain ⟨hregs, henc, hdec⟩ := hs
  refine ⟨clockEdge_keeps_regsOk hregs h, ?_, ?_⟩
  all_goals
    obtain ⟨hW, -, hdregs⟩ := hregs
    obtain ⟨u, hu, ht⟩ := clockEdge_next h
  · exact decEdge_keeps_encTraced (encEdge_keeps_encTraced hW henc hu) ht
  · have huW : 1 ≤ u.W := by
      obtain ⟨_, _, _, rfl⟩ := encEdge_frame hu
      exact hW
    exact decEdge_keeps_decTraced huW (encEdge_keeps_decRegs hdregs hu) (encEdge_keeps_decTraced hdec hu) ht

/-- A step is an edge of the environment's list, and the invariant does not read the list. -/
theorem step_keeps_codecInv {s t : State} (hs : CodecInv s) (h : step s = .next t) : CodecInv t :=
  clockEdge_keeps_codecInv (s := { s with edges := s.edges.tail }) hs h

theorem codecInv_resetAt {W : Nat} (hW : 1 ≤ W) (ps : List PortIn) : CodecInv { State.resetAt W with edges := ps } := by
  refine ⟨⟨hW, ?_, ?_⟩, ⟨rfl, rfl, rfl⟩, ?_⟩
  · exact (encRegs_iff _).2 (encOk_reset W)
  · exact (decRegs_iff _).2 (decOk_reset W)
  · exact decTraced_resetDec { State.resetAt W with edges := ps }

theorem core_run_succ (k : Nat) (s : State) :
    Sys2Proof.core.run (k + 1) s = andThen (step s) (Sys2Proof.core.run k) := by
  cases h : step s with
  | next u =>
    have h' : Sys2Proof.core.step s = .next u := h
    simp only [Host.Core.run, h', andThen]
  | fault x =>
    have h' : Sys2Proof.core.step s = .fault x := h
    simp only [Host.Core.run, h', andThen]
    rfl
  | refused x =>
    have h' : Sys2Proof.core.step s = .refused x := h
    simp only [Host.Core.run, h', andThen]
    rfl

/-- What holds of a state and is kept by every step holds after every run. -/
theorem core_run_keeps {P : State → Prop} (hP : ∀ s t, P s → step s = .next t → P t) {k : Nat} {s t : State}
    (hs : P s) (h : Sys2Proof.core.run k s = .next t) : P t := by
  induction k generalizing s with
  | zero =>
    cases h
    exact hs
  | succ k ih =>
    rw [core_run_succ] at h
    obtain ⟨u, hu, ht⟩ := andThen_next h
    exact ih (hP s u hs hu) ht

/-- Every run from reset keeps the width and the invariant. -/
theorem core_run_inv {W k : Nat} {ps : List PortIn} {t : State} (hW : 1 ≤ W)
    (h : Sys2Proof.core.run k { State.resetAt W with edges := ps } = .next t) : t.W = W ∧ CodecInv t := by
  refine core_run_keeps (P := fun s => s.W = W ∧ CodecInv s) (fun s t ⟨hsW, hs⟩ hst => ?_)
    ⟨rfl, codecInv_resetAt hW ps⟩ h
  exact ⟨(widthNeverChanges s t hst).trans hsW, step_keeps_codecInv hs hst⟩

/-! ### The obligations -/

/-- Settles O38: each unit's part of the edge keeps its own relation and leaves the other unit's alone. -/
theorem invariantIsKept : Obligations.InvariantIsKept := fun _ _ => step_keeps_codecInv

/-- Settles O36: the units at reset, with empty traces. -/
theorem invariantAtReset : Obligations.InvariantAtReset :=
  ⟨codecInv_resetAt (W := Config.defaultWidth) (by decide) [], fun _ ps hW => codecInv_resetAt hW ps⟩

/-- Settles O44: the output of each unit is `encOutput` and `decOutput` of its input. -/
theorem outputIsAFunctionOfInput : Obligations.OutputIsAFunctionOfInput := by
  intro s t ⟨_, hse, hsd⟩ ⟨_, hte, htd⟩ hW
  refine ⟨fun h => ?_, fun h => ?_⟩
  · rw [encTraced_output hse, encTraced_output hte, hW, h]
  · rw [decTraced_output hsd, decTraced_output htd, hW, h]

/-- Settles O45: `encOutput` and `decOutput` end in `CLOSE` exactly when `END` has been taken. -/
theorem closeOnceAndLast : Obligations.CloseOnceAndLast := by
  intro s ⟨_, henc, hdec⟩
  rw [encTraced_output henc, decTraced_output hdec]
  refine ⟨fun h => ?_, fun h => ?_, fun h => ?_, fun h => ?_⟩
  · exact ⟨_, if_pos h⟩
  · exact ⟨_, if_neg h⟩
  · refine ⟨decodeFields (unpackFields s.W (inBits s.trDI)), ?_⟩
    rw [decOutput, if_pos h, decTraced_derr hdec h]
  · refine ⟨decodeFields (unpackFields s.W (inBits s.trDI)), ?_⟩
    rw [decOutput, if_neg h, List.append_nil]

/-- Settles O58: the last field of what has been taken counts the run in progress, at polarity `ebit`. -/
theorem encoderPolarity : Obligations.EncoderPolarity := by
  intro s ⟨⟨hW, hregs, _⟩, henc, _⟩ hest
  obtain ⟨B, F, -, hlast, hE, hout⟩ := (encTraced_of_inRun hest).1 henc
  obtain ⟨hcnt, -⟩ := (encRegs_iff s).1 hregs
  exact ⟨F, hout, parity_of_encodeFields hW hlast hE (hcnt hest)⟩

/-- Settles O48: the invariant after the run, in `DONE` with an empty queue. -/
theorem encoderInvocation : Obligations.EncoderInvocation := by
  intro W k ps t hW h ⟨hest, hq⟩
  obtain ⟨rfl, -, henc, -⟩ := core_run_inv hW h
  obtain ⟨B, hEI, hout⟩ := (encTraced_of_done hest).1 henc
  rw [hq, List.append_nil] at hout
  exact ⟨B, hEI, hout⟩

/-- Settles O49: the invariant after the run, in `DONE` with no `CLOSE` pending. -/
theorem decoderInvocation : Obligations.DecoderInvocation := by
  intro W k ps t hW h ⟨hd, hc⟩
  obtain ⟨rfl, -, -, hdec⟩ := core_run_inv hW h
  obtain ⟨X, hDI, -, -, herr, hout⟩ := (decTraced_of_done hd).1 hdec
  rw [hc, if_neg Bool.false_ne_true, List.append_nil] at hout
  exact ⟨X, hDI, herr, hout⟩

end Sys2Proof.Machine
end

section
/-! Runs of the decoder over a given list of edges: the copies of a run (R133, R135), the wire bits of a field (R131,
R132), and a field at a time (41_decoder section 6). -/

namespace Sys2Proof.Machine

/-! ### Runs -/

theorem core_run_step {s u : State} (k : Nat) (h : step s = .next u) :
    Sys2Proof.core.run (k + 1) s = Sys2Proof.core.run k u := by
  rw [core_run_succ, h]
  rfl

theorem core_run_add {a b : Nat} {s u : State} (h : Sys2Proof.core.run a s = .next u) :
    Sys2Proof.core.run (a + b) s = Sys2Proof.core.run b u := by
  induction a generalizing s with
  | zero =>
    cases h
    rw [Nat.zero_add]
  | succ a ih =>
    rw [core_run_succ] at h
    obtain ⟨v, hv, hu⟩ := andThen_next h
    rw [Nat.add_right_comm, core_run_step _ hv, ih hu]

/-! ### The copies of a run -/

/-- A willing sink and nothing else: a copy is put out (R135). -/
theorem step_of_copy {s : State} {ps : List PortIn} (he : s.edges = { PortIn.idle with doReady := true } :: ps)
    (hs : s.dec.dst = .inRun) (h1 : 1 ≤ s.dec.drem.toNat) :
    step s = .next (besideDec s (tookCopy s.dec) s.trDI (s.trDO ++ [OutTok.bit s.dec.dpol]) ps) := by
  rw [step_of_edges he, encEdge_of_encIdle ⟨rfl, rfl, rfl⟩]
  exact decEdge_of_copy (s := { s with edges := ps }) rfl rfl hs h1

theorem run_copies {n : Nat} {s : State} (hs : s.dec.dst = .inRun) (hn : s.dec.drem.toNat = n + 1)
    (he : s.edges = List.replicate (n + 1) { PortIn.idle with doReady := true }) :
    Sys2Proof.core.run (n + 1) s =
      .next (besideDec s { s.dec with drem := 0, dpol := !s.dec.dpol, dst := .atRunStart } s.trDI
        (s.trDO ++ List.replicate (n + 1) (OutTok.bit s.dec.dpol)) []) := by
  induction n generalizing s with
  | zero =>
    have htook : tookCopy s.dec = { s.dec with drem := 0, dpol := !s.dec.dpol, dst := .atRunStart } := if_pos hn
    exact htook ▸ core_run_step 0 (step_of_copy he hs (by omega))
  | succ n ih =>
    have htook : tookCopy s.dec = { s.dec with drem := BitVec.ofNat s.W (s.dec.drem.toNat - 1) } :=
      if_neg (by omega)
    have hrem : (tookCopy s.dec).drem.toNat = n + 1 := by
      rw [htook]
      exact drem_pred_toNat.trans (by omega)
    have hrun : (tookCopy s.dec).dst = .inRun := by rwa [htook]
    have hstep := step_of_copy he hs (by omega)
    have hrest := (core_run_step (n + 1) hstep).trans (ih hrun hrem rfl)
    rw [htook] at hrest
    exact hrest.trans (congrArg (fun tr => Host.Outcome.next (besideDec s _ s.trDI tr [])) (List.append_assoc ..))

/-! ### The wire bits of a field -/

/-- Wire bits shifted in one after the other push the old ones out at the top (R131, R91). -/
theorem foldl_shiftIn_toNat {W : Nat} (v : CountField W) (bits : List Bool) :
    (bits.foldl shiftIn v).toNat = (v.toNat * 2 ^ bits.length + wireValue bits) % 2 ^ W := by
  induction bits using List.reverseRecOn with
  | nil => simp [Nat.mod_eq_of_lt v.isLt]
  | append_singleton bits b ih =>
    rw [List.foldl_append, List.foldl_cons, List.foldl_nil, shiftIn_toNat, ih, wireValue_concat, List.length_append,
      List.length_singleton, Nat.pow_succ, Nat.add_mod, Nat.mul_mod_mod, ← Nat.add_mod]
    congr 1
    ring

/-- `W` wire bits make a field of their value, whatever the unpacker held before (R91, R132). -/
theorem foldl_shiftIn_field {W : Nat} (v : CountField W) {bits : List Bool} (h : bits.length = W) :
    (bits.foldl shiftIn v).toNat = wireValue bits := by
  have hlt := wireValue_lt bits
  rw [h] at hlt
  rw [foldl_shiftIn_toNat, h, Nat.mul_add_mod_self_right, Nat.mod_eq_of_lt hlt]

/-- A wire bit offered to a waiting decoder and nothing else: `DBIT` is the whole step (R53, R82). -/
theorem step_of_wireBit {s : State} {b : Bool} {ps : List PortIn}
    (he : s.edges = edgeDI (tokCode false b) :: ps) (hs : s.dec.dst = .atRunStart) :
    step s = exec (dbit b) { s with edges := ps } := by
  have hcode : diCode (edgeDI (tokCode false b)) = tokCode false b := by simp [diCode, edgeDI]
  rw [step_of_edges he, encEdge_of_encIdle ⟨rfl, rfl, rfl⟩, andThen,
    decEdge_of_taken (s := { s with edges := ps }) rfl hs rfl, hcode, decodeToken_di_bit]

theorem step_of_incomplete {s : State} {b : Bool} {ps : List PortIn}
    (he : s.edges = edgeDI (tokCode false b) :: ps) (hs : s.dec.dst = .atRunStart) (hn : s.dec.dn.toNat < s.W - 1) :
    step s = .next (besideDec s (shiftBit b s.dec) (s.trDI ++ [InTok.bit b]) s.trDO ps) := by
  rw [step_of_wireBit he hs]
  exact exec_dbit_of_incomplete (s := { s with edges := ps }) b hs hn

theorem step_of_complete {s : State} {b : Bool} {ps : List PortIn}
    (he : s.edges = edgeDI (tokCode false b) :: ps) (hs : s.dec.dst = .atRunStart) (hn : s.dec.dn.toNat = s.W - 1) :
    step s = .next (besideDec s (completeField b s.dec) (s.trDI ++ [InTok.bit b]) s.trDO ps) := by
  rw [step_of_wireBit he hs]
  exact exec_dbit_of_complete (s := { s with edges := ps }) b hs hn

/-- The first bits of a field, as far as they do not complete it (R131). -/
theorem run_shifts {bits : List Bool} {s : State} {ps : List PortIn} (hs : s.dec.dst = .atRunStart)
    (hn : s.dec.dn.toNat + bits.length ≤ s.W - 1)
    (he : s.edges = bits.map (fun b => edgeDI (tokCode false b)) ++ ps) :
    Sys2Proof.core.run bits.length s = .next (besideDec s { s.dec with
        dsh := bits.foldl shiftIn s.dec.dsh, dn := bitCount s.W (s.dec.dn.toNat + bits.length) }
      (s.trDI ++ inToks bits) s.trDO ps) := by
  induction bits generalizing s with
  | nil =>
    have hdn : bitCount s.W s.dec.dn.toNat = s.dec.dn := by simp [bitCount]
    have he' : ps = s.edges := he.symm
    simp only [List.length_nil, Nat.add_zero, hdn, List.foldl_nil, inToks_nil, List.append_nil, he']
    rfl
  | cons b bits ih =>
    rw [List.length_cons, ← Nat.add_assoc, Nat.add_right_comm] at hn
    have hdn : (shiftBit b s.dec).dn.toNat = s.dec.dn.toNat + 1 := bitCount_toNat (by omega)
    have hstep := step_of_incomplete he hs (by omega)
    have hrest := (core_run_step bits.length hstep).trans (ih hs (by rwa [← hdn] at hn) rfl)
    have hcount : (shiftBit b s.dec).dn.toNat + bits.length = s.dec.dn.toNat + (b :: bits).length := by
      rw [hdn, List.length_cons]
      omega
    refine hrest.trans ?_
    simp only [besideDec, hcount, List.append_assoc]
    rfl

/-- The `W` bits of a field, and the field operation their value selects (R131 to R134). -/
theorem run_field {bits : List Bool} {s : State} {ps : List PortIn} (hW : 1 ≤ s.W) (hs : s.dec.dst = .atRunStart)
    (hn : s.dec.dn.toNat = 0) (hlen : bits.length = s.W)
    (he : s.edges = bits.map (fun b => edgeDI (tokCode false b)) ++ ps) :
    ∃ v : CountField s.W, v.toNat = wireValue bits ∧ Sys2Proof.core.run s.W s =
      .next (besideDec s (fieldOp v { s.dec with dsh := v, dn := bitCount s.W 0 }) (s.trDI ++ inToks bits)
        s.trDO ps) := by
  refine ⟨bits.foldl shiftIn s.dec.dsh, foldl_shiftIn_field _ hlen, ?_⟩
  rcases List.eq_nil_or_concat' bits with rfl | ⟨init, b, rfl⟩
  · rw [List.length_nil] at hlen
    omega
  · rw [List.length_append, List.length_singleton] at hlen
    have hfirst := run_shifts (bits := init) (ps := edgeDI (tokCode false b) :: ps) hs (by omega) (by simp [he])
    have hdn : (bitCount s.W (s.dec.dn.toNat + init.length)).toNat = s.W - 1 :=
      (bitCount_toNat (by omega)).trans (by omega)
    have hrun := (core_run_add hfirst).trans (core_run_step 0 (step_of_complete rfl hs hdn))
    rw [hlen] at hrun
    refine hrun.trans ?_
    rw [inToks_append, ← List.append_assoc, List.foldl_append]
    rfl

/-! ### The obligations -/

/-- Settles O46: a copy at a time. -/
theorem runPutsOutItsCopies : Obligations.RunPutsOutItsCopies := by
  intro s hs h1 he
  obtain ⟨n, hn⟩ := Nat.exists_eq_add_of_le' h1
  rw [hn] at he ⊢
  exact run_copies hs hn he

/-- Settles O47: the field's bits, then nothing more for `ESC`, or the copies of `RUN`. -/
theorem fieldAtATime : Obligations.FieldAtATime := by
  intro s c hW hM hs hn he
  obtain ⟨v, hv, hrun⟩ := run_field hW hs hn (bitsOfNat_length s.W c) he
  rw [wireValue_bitsOfNat_of_lt (lt_two_pow_of_le_maxCount hM)] at hv
  cases c with
  | zero =>
    refine ⟨escField { s.dec with dsh := v, dn := bitCount s.W 0 }, hs, bitCount_zero_toNat, rfl, rfl, rfl, ?_⟩
    rw [fieldOp, if_pos hv] at hrun
    rw [Nat.add_zero, hrun, List.replicate_zero, List.replicate_zero, List.append_nil]
    rfl
  | succ n =>
    rw [fieldOp, if_neg (by omega)] at hrun
    refine ⟨{ s.dec with dsh := v, dn := bitCount s.W 0, drem := 0, dpol := !s.dec.dpol, dst := .atRunStart },
      rfl, bitCount_zero_toNat, rfl, rfl, rfl, ?_⟩
    rw [core_run_add hrun]
    exact run_copies rfl hv rfl

end Sys2Proof.Machine
end

section
/-! An invocation ends (70_reset_and_hazards section 4): between a willing source and a willing sink every edge
transfers one token until the invocation is over, so the tokens transferred count the edges. -/

namespace Sys2Proof.Machine

/-! ### A unit between a source and a sink -/

/-- `k` edges with the pins `pins src` while the source has `src` left. -/
def driveOf (pins : List InTok → PortIn) (after : List InTok → State → List InTok) :
    Nat → List InTok → State → Result
  | 0, _, s => .next s
  | k + 1, src, s => andThen (clockEdge (pins src) s) (driveOf pins after k (after src s))

theorem encDrive_eq_driveOf (k : Nat) (src : List InTok) (s : State) :
    encDrive k src s = driveOf encDrivePins encSourceAfter k src s := by
  induction k generalizing src s with
  | zero => rfl
  | succ k ih => exact congrArg (andThen _) (funext fun u => ih _ u)

theorem decDrive_eq_driveOf (k : Nat) (src : List InTok) (s : State) :
    decDrive k src s = driveOf decDrivePins decSourceAfter k src s := by
  induction k generalizing src s with
  | zero => rfl
  | succ k ih => exact congrArg (andThen _) (funext fun u => ih _ u)

/-- If, until the end, every edge keeps `I`, moves one token and brings `left` down, then the end is reached, after as
many edges as tokens moved. -/
theorem driveOf_ends {pins : List InTok → PortIn} {after : List InTok → State → List InTok}
    {I : List InTok → State → Prop} {ended : State → Prop} {moved : State → Nat} {left : List InTok → State → Nat}
    (hprog : ∀ src s, I src s → ¬ ended s → ∃ u, clockEdge (pins src) s = .next u ∧ I (after src s) u ∧
      moved u = moved s + 1 ∧ left (after src s) u < left src s)
    {src : List InTok} {s : State} (h : I src s) :
    ∃ n src' t, driveOf pins after n src s = .next t ∧ ended t ∧ I src' t ∧ n + moved s = moved t := by
  induction hl : left src s using Nat.strong_induction_on generalizing src s with
  | _ l ih =>
    by_cases ho : ended s
    · exact ⟨0, src, s, rfl, ho, h, Nat.zero_add _⟩
    · obtain ⟨u, hu, hI, hmoved, hleft⟩ := hprog src s h ho
      obtain ⟨n, src', t, hrun, hover, ht, hn⟩ := ih _ (hl ▸ hleft) hI rfl
      refine ⟨n + 1, src', t, ?_, hover, ht, by omega⟩
      rw [driveOf, hu]
      exact hrun

/-- A trace that has taken the end marker has taken all the source had. -/
theorem source_spent {tr src : List InTok} {X : List Bool} (h : tr ++ src = inToks X ++ [.fin]) (hfin : .fin ∈ tr) :
    src = [] := by
  rcases List.eq_nil_or_concat' src with rfl | ⟨init, y, rfl⟩
  · rfl
  · rw [← List.append_assoc] at h
    have htr : tr ++ init = inToks X := (List.append_inj' h rfl).1
    exact absurd (htr ▸ List.mem_append_left init hfin) (fin_notMem_inToks X)

theorem inTokOfCode_codeOfInTok (x : InTok) :
    inTokOfCode (tokCode (codeEnd (codeOfInTok x)) (codeBit (codeOfInTok x))) = x := by
  cases x <;> simp [codeOfInTok]

/-! ### The encoder -/

section Enc

variable {s : State} {src : List InTok}

theorem clockEdge_encDrivePins {u : State} (h : encEdge (encDrivePins src) s = .next u) :
    clockEdge (encDrivePins src) s = .next u := by
  have hidle : DecIdle (encDrivePins src) := by cases src <;> exact ⟨rfl, rfl, rfl⟩
  rw [clockEdge, h]
  exact decEdge_of_decIdle hidle u

theorem encDrivePins_encRst (src : List InTok) : (encDrivePins src).encRst = false := by cases src <;> rfl
theorem encDrivePins_eoReady (src : List InTok) : (encDrivePins src).eoReady = true := by cases src <;> rfl

/-- A queued token goes out (R110). -/
theorem encDrive_edge_of_eoq {t : OutTok} {q : List OutTok} (hq : s.enc.eoq = t :: q) :
    encSourceAfter src s = src ∧ clockEdge (encDrivePins src) s =
      .next { s with enc := { s.enc with eoq := q }, trEO := s.trEO ++ [t] } := by
  refine ⟨by simp [encSourceAfter, eiReady, encAccepts, hq], clockEdge_encDrivePins ?_⟩
  exact encEdge_of_eoq hq (encDrivePins_encRst src) (encDrivePins_eoReady src)

/-- A ready encoder takes the source's token (R100). -/
theorem encDrive_edge_of_ready (x : InTok) (ha : encAccepts s.enc = true) :
    encSourceAfter (x :: src) s = src ∧ clockEdge (encDrivePins (x :: src)) s =
      .next { s with enc := encTokOp x s.enc, trEI := s.trEI ++ [x] } := by
  have hready : eiReady false s.enc = true := by simp [eiReady, ha]
  refine ⟨if_pos hready, clockEdge_encDrivePins ?_⟩
  have hcode : inTokOfCode (eiCode (encDrivePins (x :: src))) = x := inTokOfCode_codeOfInTok x
  rw [encEdge_of_taken (p := encDrivePins (x :: src)) rfl hready, decodeToken, hcode, exec_encTok,
    offerEnc_of_accepts _ _ _ ha]

/-- The encoder at width `W` has taken a part of `B` and `END`, and the source holds the rest. -/
def EncDriven (W : Nat) (B : List Bool) (src : List InTok) (s : State) : Prop :=
  CodecInv s ∧ s.W = W ∧ s.trEI ++ src = inToks B ++ [.fin]

/-- A bound on the tokens still to be transferred: those of the source with all they can queue, and those queued. -/
def encLeft (W : Nat) (src : List InTok) (s : State) : Nat := src.length * (2 * W + 1) + s.enc.eoq.length

theorem encDriven_progress {W : Nat} {B : List Bool} (h : EncDriven W B src s) (ho : ¬ EncOver s) :
    ∃ u, clockEdge (encDrivePins src) s = .next u ∧ EncDriven W B (encSourceAfter src s) u ∧
      u.trEI.length + u.trEO.length = s.trEI.length + s.trEO.length + 1 ∧
      encLeft W (encSourceAfter src s) u < encLeft W src s := by
  obtain ⟨hinv, rfl, hsrc⟩ := h
  cases hq : s.enc.eoq with
  | cons t q =>
    obtain ⟨hafter, hedge⟩ := encDrive_edge_of_eoq (src := src) hq
    rw [hafter]
    refine ⟨_, hedge, ⟨clockEdge_keeps_codecInv hinv hedge, rfl, hsrc⟩, ?_, ?_⟩
    · simp only [List.length_append, List.length_singleton]
      omega
    · simp [encLeft, hq]
  | nil =>
    have hd : s.enc.est ≠ .done := fun hd => ho ⟨hd, hq⟩
    cases src with
    | nil =>
      obtain ⟨-, henc, -⟩ := hinv
      rw [List.append_nil] at hsrc
      exact absurd (encTraced_done_of_fin henc (by simp [hsrc])) hd
    | cons x src =>
      obtain ⟨hafter, hedge⟩ := encDrive_edge_of_ready (src := src) x ((encAccepts_iff _).2 ⟨hd, hq⟩)
      have hu := clockEdge_keeps_codecInv hinv hedge
      rw [hafter]
      refine ⟨_, hedge, ⟨hu, rfl, by simp [← hsrc]⟩, ?_, ?_⟩
      · simp only [List.length_append, List.length_singleton]
        omega
      · obtain ⟨⟨-, hregs, -⟩, -, -⟩ := hu
        obtain ⟨-, hcap⟩ := hregs
        simp only [Config.queueCapacity] at hcap
        simp only [encLeft, List.length_cons, Nat.succ_mul]
        omega

/-- The encoder over, with the whole input taken. -/
theorem encDriven_over {W : Nat} {B : List Bool} (h : EncDriven W B src s) (ho : EncOver s) :
    s.trEI = inToks B ++ [.fin] ∧ s.trEO = outBits (pack W (encodeFields W B)) ++ [.close false] := by
  obtain ⟨⟨-, henc, -⟩, rfl, hsrc⟩ := h
  obtain ⟨hd, hq⟩ := ho
  obtain ⟨B', hEI, -⟩ := (encTraced_of_done hd).1 henc
  have hspent := source_spent hsrc (by simp [hEI])
  rw [hspent, List.append_nil] at hsrc
  have hout := encTraced_output henc
  rw [hq, List.append_nil, hsrc, encOutput_of_fin] at hout
  exact ⟨hsrc, hout⟩

end Enc

/-! ### The decoder -/

section Dec

variable {s : State} {src : List InTok}

theorem clockEdge_decDrivePins : clockEdge (decDrivePins src) s = decEdge (decDrivePins src) s := by
  have hidle : EncIdle (decDrivePins src) := by cases src <;> exact ⟨rfl, rfl, rfl⟩
  rw [clockEdge, encEdge_of_encIdle hidle]
  rfl

theorem decDrivePins_decRst (src : List InTok) : (decDrivePins src).decRst = false := by cases src <;> rfl
theorem decDrivePins_doReady (src : List InTok) : (decDrivePins src).doReady = true := by cases src <;> rfl

theorem decSourceAfter_of_busy (hs : s.dec.dst ≠ .atRunStart) : decSourceAfter src s = src := by
  simp [decSourceAfter, diReady, decAccepts, hs]

/-- A copy of the run goes out (R135). -/
theorem decDrive_edge_of_copy (hs : s.dec.dst = .inRun) (hn : 1 ≤ s.dec.drem.toNat) :
    clockEdge (decDrivePins src) s =
      .next { s with dec := tookCopy s.dec, trDO := s.trDO ++ [OutTok.bit s.dec.dpol] } :=
  clockEdge_decDrivePins.trans (decEdge_of_copy (decDrivePins_decRst src) (decDrivePins_doReady src) hs hn)

/-- The closing token goes out (R138). -/
theorem decDrive_edge_of_close (hs : s.dec.dst = .done) (hc : s.dec.dcl = true) :
    clockEdge (decDrivePins src) s = .next (doClose s) :=
  clockEdge_decDrivePins.trans
    (decEdge_of_close (decDrivePins_decRst src) (by simp [hs]) (decDrivePins_doReady src) (by simp [hs]) hc)

/-- A waiting decoder takes the source's token (R130). -/
theorem decDrive_edge_of_ready (x : InTok) (hs : s.dec.dst = .atRunStart) :
    decSourceAfter (x :: src) s = src ∧ clockEdge (decDrivePins (x :: src)) s = exec (instrOfTok .di x) s := by
  have hready : diReady false s.dec = true := by simp [diReady, decAccepts, hs]
  have hcode : inTokOfCode (diCode (decDrivePins (x :: src))) = x := inTokOfCode_codeOfInTok x
  refine ⟨if_pos hready, ?_⟩
  rw [clockEdge_decDrivePins, decEdge_of_taken rfl hs rfl, decodeToken, hcode]

/-- The decoder at width `W` has taken a part of `X` and `END`, and the source holds the rest. -/
def DecDriven (W : Nat) (X : List Bool) (src : List InTok) (s : State) : Prop :=
  CodecInv s ∧ s.W = W ∧ s.trDI ++ src = inToks X ++ [.fin]

/-- A bound on the tokens still to be transferred: those of the source with all they can put out, and those pending. -/
def decLeft (W : Nat) (src : List InTok) (s : State) : Nat := src.length * (2 ^ W + 1) + (decPending s.dec).length

theorem decPending_length_le {W : Nat} (d : Dec W) : (decPending d).length ≤ 2 ^ W := by
  have hpos : 1 ≤ 2 ^ W := Nat.two_pow_pos W
  have hrem := d.drem.isLt
  unfold decPending
  split
  · simp
  · rw [List.length_replicate]
    omega
  · split
    · exact hpos
    · exact Nat.zero_le _

theorem decPending_tookCopy {W : Nat} {d : Dec W} (hs : d.dst = .inRun) (hn : 1 ≤ d.drem.toNat) :
    (decPending (tookCopy d)).length < (decPending d).length := by
  have hold : (decPending d).length = d.drem.toNat := by simp [decPending, hs]
  unfold tookCopy
  split
  · rw [hold]
    exact hn
  · simp only [decPending, hs, drem_pred_toNat, List.length_replicate]
    omega

theorem decDriven_progress {W : Nat} {X : List Bool} (h : DecDriven W X src s) (ho : ¬ DecOver s) :
    ∃ u, clockEdge (decDrivePins src) s = .next u ∧ DecDriven W X (decSourceAfter src s) u ∧
      u.trDI.length + u.trDO.length = s.trDI.length + s.trDO.length + 1 ∧
      decLeft W (decSourceAfter src s) u < decLeft W src s := by
  obtain ⟨hinv, rfl, hsrc⟩ := h
  have ⟨⟨_, _, hregs⟩, _, hdec⟩ := hinv
  cases hd : s.dec.dst with
  | atRunStart =>
    cases src with
    | nil =>
      rw [List.append_nil] at hsrc
      have hdone := decTraced_done_of_fin hdec (by simp [hsrc])
      simp [hd] at hdone
    | cons x src =>
      obtain ⟨hafter, hedge⟩ := decDrive_edge_of_ready (src := src) x hd
      obtain ⟨u, hu⟩ := exec_decTok_succeeds hregs x
      have hDI := exec_decTok_trDI hu hd
      have hDO := exec_decTok_trDO hu
      rw [hafter, hedge]
      rw [hu] at hedge
      have hW := clockEdge_W hedge
      refine ⟨u, hu, ⟨clockEdge_keeps_codecInv hinv hedge, hW, by simp [hDI, ← hsrc]⟩, ?_, ?_⟩
      · rw [hDI, hDO, List.length_append, List.length_singleton]
        omega
      · have hpend := (decPending_length_le u.dec).trans_eq (congrArg (2 ^ ·) hW)
        simp only [decLeft, List.length_cons, Nat.succ_mul]
        omega
  | inRun =>
    obtain ⟨hrem, -⟩ := hregs
    have hn : 1 ≤ s.dec.drem.toNat := hrem.1 hd
    have hedge := decDrive_edge_of_copy (src := src) hd hn
    rw [decSourceAfter_of_busy (by simp [hd])]
    refine ⟨_, hedge, ⟨clockEdge_keeps_codecInv hinv hedge, rfl, hsrc⟩, ?_, ?_⟩
    · simp only [List.length_append, List.length_singleton]
      omega
    · exact Nat.add_lt_add_left (decPending_tookCopy hd hn) _
  | done =>
    have hc : s.dec.dcl = true := by
      by_contra hc
      exact ho ⟨hd, by simpa using hc⟩
    have hedge := decDrive_edge_of_close (src := src) hd hc
    rw [decSourceAfter_of_busy (by simp [hd])]
    refine ⟨_, hedge, ⟨clockEdge_keeps_codecInv hinv hedge, rfl, hsrc⟩, ?_, ?_⟩
    · simp only [doClose_trDI, doClose_trDO, List.length_append, List.length_singleton]
      omega
    · simp [decLeft, decPending, hd, hc]

/-- The decoder over, with the whole input taken. -/
theorem decDriven_over {W : Nat} {X : List Bool} (h : DecDriven W X src s) (ho : DecOver s) :
    s.trDI = inToks X ++ [.fin] ∧ s.dec.derr = decide (tailCount W X ≠ 0) ∧
      s.trDO = outBits (decodeFields (unpackFields W X)) ++ [.close s.dec.derr] := by
  obtain ⟨⟨-, -, hdec⟩, rfl, hsrc⟩ := h
  obtain ⟨hd, hc⟩ := ho
  obtain ⟨X', hDI, -⟩ := (decTraced_of_done hd).1 hdec
  have hspent := source_spent hsrc (by simp [hDI])
  rw [hspent, List.append_nil] at hsrc
  have hpend : decPending s.dec = [] := by simp [decPending, hd, hc]
  have hout := decTraced_output hdec
  have herr := decTraced_derr hdec (by simp [hsrc])
  rw [hsrc, inBits_inToks_fin] at herr
  rw [hpend, List.append_nil, hsrc, decOutput_of_fin, ← herr] at hout
  exact ⟨hsrc, herr, hout⟩

end Dec

/-! ### The obligations -/

/-- Settles O50: every edge moves a token until the end, so the traces at the end count the edges. -/
theorem encoderInvocationEnds : Obligations.EncoderInvocationEnds := by
  intro W B hW
  have hstart : EncDriven W B (inToks B ++ [.fin]) (State.resetAt W) := ⟨codecInv_resetAt hW [], rfl, rfl⟩
  obtain ⟨n, src, t, hrun, hover, ht, hn⟩ := driveOf_ends (moved := fun s => s.trEI.length + s.trEO.length)
    (fun src s => encDriven_progress) hstart
  obtain ⟨hEI, hEO⟩ := encDriven_over ht hover
  have hcount : n = B.length + W * (encodeFields W B).length + 2 := by
    have hlen : n + 0 = t.trEI.length + t.trEO.length := hn
    rw [hEI, hEO] at hlen
    simp only [List.length_append, inToks_length, outBits_length, pack_length, List.length_singleton] at hlen
    rw [Nat.mul_comm W]
    omega
  refine ⟨t, ?_, hover, hEI, hEO⟩
  rw [encDrive_eq_driveOf, ← hcount]
  exact hrun

/-- Settles O51: as for the encoder. -/
theorem decoderInvocationEnds : Obligations.DecoderInvocationEnds := by
  intro W X hW
  have hstart : DecDriven W X (inToks X ++ [.fin]) (State.resetAt W) := ⟨codecInv_resetAt hW [], rfl, rfl⟩
  obtain ⟨n, src, t, hrun, hover, ht, hn⟩ := driveOf_ends (moved := fun s => s.trDI.length + s.trDO.length)
    (fun src s => decDriven_progress) hstart
  obtain ⟨hDI, herr, hDO⟩ := decDriven_over ht hover
  have hcount : n = X.length + (decodeFields (unpackFields W X)).length + 2 := by
    have hlen : n + 0 = t.trDI.length + t.trDO.length := hn
    rw [hDI, hDO] at hlen
    simp only [List.length_append, inToks_length, outBits_length, List.length_singleton] at hlen
    omega
  refine ⟨t, ?_, hover, hDI, herr, hDO⟩
  rw [decDrive_eq_driveOf, ← hcount]
  exact hrun

end Sys2Proof.Machine
end

section
/-! The loop-back system, `EO` wired to `DI` (R68): what one edge moves, and the round trip of a whole invocation
(R146). -/

namespace Sys2Proof.Machine

/-- The input token that an output token is read as on the other end of the wires: `CLOSE` is read as `END` (R68). -/
def inTokOfOut : OutTok → InTok
  | .bit b => .bit b
  | .close _ => .fin

theorem inTokOfCode_codeOfOutTok (x : OutTok) : inTokOfCode (codeOfOutTok x) = inTokOfOut x := by
  cases x <;> simp [codeOfOutTok, inTokOfOut]

theorem map_inTokOfOut_outBits (X : List Bool) : (outBits X).map inTokOfOut = inToks X := by
  rw [outBits, List.map_map]
  rfl

/-- The encoder's `CLOSE` carries 0, and it has one only after `END` (R102, R61). -/
theorem close_mem_encOutput {W : Nat} {tr : List InTok} {e : Bool} (h : .close e ∈ encOutput W tr) :
    e = false ∧ .fin ∈ tr := by
  unfold encOutput at h
  split at h
  · exact ⟨by simpa [outBits] using h, ‹_›⟩
  · simp [outBits] at h

/-! ### One edge -/

section Edge

variable {p : PortIn} {s : State}

/-- With a queued token and a waiting decoder, the token is on the pins of `DI` and both ends are ready (R68). -/
theorem loopPins_of_offer {x : OutTok} {q : List OutTok} (hp : NoReset p) (hq : s.enc.eoq = x :: q)
    (hd : s.dec.dst = .atRunStart) :
    (loopPins p s).eoReady = true ∧ (loopPins p s).diValid = true ∧
      inTokOfCode (diCode (loopPins p s)) = inTokOfOut x := by
  obtain ⟨hr, hr'⟩ := hp
  have hcode : diCode (loopPins p s) = codeOfOutTok x := portsOut_eo_of_head hq hr
  refine ⟨(portsOut_diReady_iff p s).2 ⟨hd, hr'⟩, ?_, by rw [hcode, inTokOfCode_codeOfOutTok]⟩
  exact (portsOut_eoValid p s).trans (by simp [hq, hr])

theorem loopEdge_of_offer {t : State} {x : OutTok} {q : List OutTok} (hp : NoReset p) (hq : s.enc.eoq = x :: q)
    (hd : s.dec.dst = .atRunStart) (h : loopEdge p s = .next t) :
    t.trEO = s.trEO ++ [x] ∧ t.trDI = s.trDI ++ [inTokOfOut x] := by
  obtain ⟨ho, hv, hcode⟩ := loopPins_of_offer hp hq hd
  obtain ⟨u, hu, ht⟩ := clockEdge_next h
  have hpop := encEdge_of_eoq (p := loopPins p s) hq hp.1 ho
  cases hpop.symm.trans hu
  refine ⟨decEdge_trEO ht, ?_⟩
  have hx := (decEdge_of_taken hv (by exact hd) hp.2).symm.trans ht
  rw [decodeToken, hcode] at hx
  exact (exec_decTok_trDI hx (by exact hd) :)

/-- Without a queued token, or with a decoder that is not waiting, neither end moves (R68). -/
theorem loopEdge_of_no_offer {t : State} (hp : NoReset p) (hn : ¬ (s.enc.eoq ≠ [] ∧ s.dec.dst = .atRunStart))
    (h : loopEdge p s = .next t) : t.trEO = s.trEO ∧ t.trDI = s.trDI := by
  obtain ⟨u, hu, ht⟩ := clockEdge_next h
  have hEO : u.trEO = s.trEO := by
    rcases encEdge_cases (loopPins p s) s with ⟨hr, _⟩ | ⟨_, _, _, h'⟩ | ⟨_, _, ho, x, q, hq, _⟩ | ⟨_, _, _, h'⟩
    · exact absurd hr (by simp [loopPins, hp.1])
    · cases h'.symm.trans hu
      rfl
    · exact absurd ⟨by simp [hq], ((portsOut_diReady_iff p s).1 ho).1⟩ hn
    · cases h'.symm.trans hu
      rfl
  refine ⟨(decEdge_trEO ht).trans hEO, ?_⟩
  obtain ⟨e, tr, tr', rfl⟩ := encEdge_frame hu
  rcases decEdge_next ht with ⟨hr, _⟩ | ⟨_, hv, hd, _⟩ | ⟨_, _, _, _, rfl⟩ | ⟨_, _, _, _, _, rfl⟩ | ⟨_, _, _, rfl⟩
  · exact absurd hr (by simp [loopPins, hp.2])
  · exact absurd ⟨eoq_ne_nil_of_eoValid (p := p) hv, hd⟩ hn
  all_goals rfl

/-- At an edge of the loop-back system a token moves from the queue to both traces, or none does (R68). -/
theorem loopEdge_moves {t : State} (hp : NoReset p) (h : loopEdge p s = .next t) :
    (t.trEO = s.trEO ∧ t.trDI = s.trDI) ∨
    ∃ x ∈ s.enc.eoq, t.trEO = s.trEO ++ [x] ∧ t.trDI = s.trDI ++ [inTokOfOut x] := by
  by_cases hn : s.enc.eoq ≠ [] ∧ s.dec.dst = .atRunStart
  · obtain ⟨x, q, hq⟩ := List.exists_cons_of_ne_nil hn.1
    exact .inr ⟨x, by simp [hq], loopEdge_of_offer hp hq hn.2 h⟩
  · exact .inl (loopEdge_of_no_offer hp hn h)

end Edge

/-! ### A whole run -/

/-- The loop-back system's invariant: what has entered `DI` is what has left `EO`. -/
def LoopInv (W : Nat) (s : State) : Prop := CodecInv s ∧ s.W = W ∧ s.trDI = s.trEO.map inTokOfOut

theorem loopEdge_keeps_loopInv {W : Nat} {p : PortIn} {s t : State} (hp : NoReset p) (hs : LoopInv W s)
    (h : loopEdge p s = .next t) : LoopInv W t := by
  obtain ⟨hinv, hW, htr⟩ := hs
  refine ⟨clockEdge_keeps_codecInv hinv h, (clockEdge_W h).trans hW, ?_⟩
  rcases loopEdge_moves hp h with ⟨hEO, hDI⟩ | ⟨x, -, hEO, hDI⟩
  · rw [hEO, hDI, htr]
  · rw [hEO, hDI, htr, List.map_append, List.map_singleton]

theorem loopRun_keeps_loopInv {W : Nat} {ps : List PortIn} {s t : State} (hps : ∀ p ∈ ps, NoReset p)
    (hs : LoopInv W s) (h : loopRun ps s = .next t) : LoopInv W t := by
  induction ps generalizing s with
  | nil =>
    cases h
    exact hs
  | cons p ps ih =>
    obtain ⟨hp, hps⟩ := List.forall_mem_cons.1 hps
    obtain ⟨u, hu, ht⟩ := andThen_next h
    exact ih hps (loopEdge_keeps_loopInv hp hs hu) ht

/-- When the decoder of the loop-back system has taken `END`, it has taken the encoder's whole output. -/
theorem loopInv_of_fin {W : Nat} {s : State} (h : LoopInv W s) (hfin : .fin ∈ s.trDI) :
    ∃ B, s.trEI = inToks B ++ [.fin] ∧ s.trDI = inToks (pack W (encodeFields W B)) ++ [.fin] := by
  obtain ⟨⟨-, henc, -⟩, rfl, htr⟩ := h
  have hEI : .fin ∈ s.trEI := by
    obtain ⟨x, hx, hxfin⟩ := List.mem_map.1 (htr ▸ hfin)
    cases x with
    | bit b => simp [inTokOfOut] at hxfin
    | close e => exact (close_mem_encOutput (encTraced_output henc ▸ List.mem_append_left _ hx)).2
  obtain ⟨B, hB, hout⟩ := (encTraced_of_done (encTraced_done_of_fin henc hEI)).1 henc
  have hmap : s.trDI ++ s.enc.eoq.map inTokOfOut = inToks (pack s.W (encodeFields s.W B)) ++ [.fin] := by
    rw [htr, ← List.map_append, hout, List.map_append, map_inTokOfOut_outBits]
    rfl
  rw [source_spent hmap hfin, List.append_nil] at hmap
  exact ⟨B, hB, hmap⟩

/-! ### The obligations -/

/-- Settles O55: the token that moves is a queued one, and a queued `CLOSE` carries 0. -/
theorem loopbackMovesTokens : Obligations.LoopbackMovesTokens := by
  intro s t p ⟨_, henc, _⟩ hp h
  rcases loopEdge_moves hp h with hnone | ⟨x, hx, hEO, hDI⟩
  · exact .inl hnone
  · cases x with
    | bit b => exact .inr (.inl ⟨b, hEO, hDI⟩)
    | close e =>
      obtain ⟨rfl, -⟩ := close_mem_encOutput (encTraced_output henc ▸ List.mem_append_right _ hx)
      exact .inr (.inr ⟨hEO, hDI⟩)

/-- Settles O54: the decoder took the packed fields of `Encode`, which `Unpack` and `Decode` turn back. -/
theorem loopbackRoundTrip : Obligations.LoopbackRoundTrip := by
  intro W ps t hW hps h hover
  have hloop := loopRun_keeps_loopInv hps (W := W) ⟨codecInv_resetAt hW [], rfl, rfl⟩ h
  have ⟨hinv, htW, _⟩ := hloop
  have ⟨_, _, hdec⟩ := hinv
  obtain ⟨X, hDI, -⟩ := (decTraced_of_done hover.1).1 hdec
  obtain ⟨B, hEI, hpack⟩ := loopInv_of_fin hloop (by simp [hDI])
  obtain ⟨-, herr, hDO⟩ := decDriven_over (src := []) ⟨hinv, htW, by rw [hpack, List.append_nil]⟩ hover
  rw [tailCount_pack] at herr
  rw [unpackFields_pack hW (encodeFields_le hW B), decodeFields_encodeFields hW, herr] at hDO
  exact ⟨B, hEI, hDO, herr⟩

end Sys2Proof.Machine
end
